-- ==== Sys2Proof/Word.lean ====
section
/-! DEFINITION. The word types of the machine (R8, R20, R25, R26). -/

namespace Sys2Proof

/-- One memory cell, register, address or operand: 8 bits, unsigned (R8: CELL_WIDTH, REG_WIDTH, ADDR_WIDTH, PC_WIDTH). -/
abbrev Byte := BitVec 8

/-- The storage of the flags register `FL`: 3 bits (R26). -/
abbrev FlagBits := BitVec 3

/-- The index of a register, `R0` to `R7` (R20). -/
abbrev RegIdx := Fin 8

end Sys2Proof
end

