-- ==== Sys2Proof/Syntax.lean ====
section
/-! DEFINITION. The 13 instructions as syntax (R76), with the raw operand bytes `a`, `b` of R13. -/

namespace Sys2Proof

/-- One constructor per row of the opcode table (R76), in the table's order. Operands are whole raw bytes (R75):
an operand byte may hold any value (R80), and what a register operand of 8 or more selects is settled in execution
(R101), not here. -/
inductive Instr where
  /-- LDI, format F2I: destination register, immediate (R120). -/
  | ldi (a imm : Byte)
  /-- HLT, format F0 (R122). -/
  | hlt
  /-- PRN, format F1: source register (R121). -/
  | prn (a : Byte)
  /-- MUL, format F2R: destination and first source, second source (R132). -/
  | mul (a b : Byte)
  /-- PUSH, format F1: source register (R142). -/
  | push (a : Byte)
  /-- POP, format F1: destination register (R143). -/
  | pop (a : Byte)
  /-- CALL, format F1: the register holding the target (R150). -/
  | call (a : Byte)
  /-- RET, format F0 (R151). -/
  | ret
  /-- ADD, format F2R: destination and first source, second source (R131). -/
  | add (a b : Byte)
  /-- CMP, format F2R: first register, second register (R160). -/
  | cmp (a b : Byte)
  /-- JEQ, format F1: the register holding the target (R161). -/
  | jeq (a : Byte)
  /-- JMP, format F1: the register holding the target (R162). -/
  | jmp (a : Byte)
  /-- JNE, format F1: the register holding the target (R163). -/
  | jne (a : Byte)
  deriving DecidableEq, Repr

/-- The four instruction formats (R71 to R74). -/
inductive Format where
  | F0
  | F1
  | F2R
  | F2I
  deriving DecidableEq, Repr

/-- The number of operand bytes of a format (R71 to R74). -/
def Format.operandCount : Format → Nat
  | .F0 => 0
  | .F1 => 1
  | .F2R => 2
  | .F2I => 2

/-- The length of a format in bytes: one opcode byte and its operands (R70). -/
def Format.length (f : Format) : Nat := 1 + f.operandCount

/-- The format of an instruction (R76, column format). -/
def Instr.format : Instr → Format
  | .ldi _ _ => .F2I
  | .hlt => .F0
  | .prn _ => .F1
  | .mul _ _ => .F2R
  | .push _ => .F1
  | .pop _ => .F1
  | .call _ => .F1
  | .ret => .F0
  | .add _ _ => .F2R
  | .cmp _ _ => .F2R
  | .jeq _ => .F1
  | .jmp _ => .F1
  | .jne _ => .F1

/-- The length of an instruction in bytes (R70). -/
def Instr.length (i : Instr) : Nat := i.format.length

/-- The operand bytes that the format declares as registers, in the order they are checked (R98, column "register
operands checked"; R101). -/
def Instr.regOperands : Instr → List Byte
  | .ldi a _ => [a]
  | .hlt => []
  | .prn a => [a]
  | .mul a b => [a, b]
  | .push a => [a]
  | .pop a => [a]
  | .call a => [a]
  | .ret => []
  | .add a b => [a, b]
  | .cmp a b => [a, b]
  | .jeq a => [a]
  | .jmp a => [a]
  | .jne a => [a]

end Sys2Proof
end

