-- ==== Sys2Proof/WellFormed.lean ====
section
/-! DEFINITION. When an instruction names only registers that exist (R75: indices 0..7 select R0..R7). -/

namespace Sys2Proof

/-- A register operand byte that selects a register as it stands (R75). The values 8..255 select none, and R101
settles them under `REG_INDEX_POLICY`. -/
abbrev Byte.isRegister (b : Byte) : Prop := b.toNat < 8

/-- Every register operand of the instruction is in 0..7. This is the only check the syntax admits: an immediate is
never illegal (R80). An instruction that is not well formed still decodes and has a meaning (R101; log entry 14). -/
abbrev Instr.WellFormed (i : Instr) : Prop := ∀ b ∈ i.regOperands, b.isRegister

end Sys2Proof
end

