-- ==== Sys2Proof/Decode.lean ====
section
/-! DEFINITION. The decoder (table lookup on the whole opcode byte, R76, R77) and, after it, the encoder. -/

namespace Sys2Proof

/-- The fetch window: the bytes at `pc`, `pc+1` and `pc+2` (R97). -/
structure Window where
  op : Byte
  a  : Byte
  b  : Byte
  deriving DecidableEq, Repr

/-- Why the decoder refuses. -/
inductive DecodeError where
  /-- `op` is not one of the 13 opcodes (R79). -/
  | unknownOpcode (op : Byte)
  deriving DecidableEq, Repr

/-- One row of the decode table: the opcode byte and the instruction it makes of the two candidate operands. The
bytes an instruction does not consult have no effect (R97). -/
structure DecodeRow where
  opcode : Byte
  build  : Byte → Byte → Instr

/-- The decode table: the 13 rows of R76, in its order. -/
def decodeTable : List DecodeRow := [
  ⟨0x82, fun a b => .ldi a b⟩,
  ⟨0x01, fun _ _ => .hlt⟩,
  ⟨0x47, fun a _ => .prn a⟩,
  ⟨0xA2, fun a b => .mul a b⟩,
  ⟨0x45, fun a _ => .push a⟩,
  ⟨0x46, fun a _ => .pop a⟩,
  ⟨0x50, fun a _ => .call a⟩,
  ⟨0x11, fun _ _ => .ret⟩,
  ⟨0xA0, fun a b => .add a b⟩,
  ⟨0xA7, fun a b => .cmp a b⟩,
  ⟨0x55, fun a _ => .jeq a⟩,
  ⟨0x54, fun a _ => .jmp a⟩,
  ⟨0x56, fun a _ => .jne a⟩]

/-- The row of the decode table whose opcode is the whole byte `op` (R77). -/
def decodeLookup (op : Byte) : List DecodeRow → Option DecodeRow
  | [] => none
  | row :: rows => if row.opcode = op then some row else decodeLookup op rows

/-- Decode a fetch window (R98): the instruction, or UNKNOWN with the opcode byte (R79). Total on any three bytes. -/
def decode (w : Window) : Except DecodeError Instr :=
  match decodeLookup w.op decodeTable with
  | some row => .ok (row.build w.a w.b)
  | none => .error (.unknownOpcode w.op)

/-- The opcode byte of an instruction (R76). -/
def Instr.opcode : Instr → Byte
  | .ldi _ _ => 0x82
  | .hlt => 0x01
  | .prn _ => 0x47
  | .mul _ _ => 0xA2
  | .push _ => 0x45
  | .pop _ => 0x46
  | .call _ => 0x50
  | .ret => 0x11
  | .add _ _ => 0xA0
  | .cmp _ _ => 0xA7
  | .jeq _ => 0x55
  | .jmp _ => 0x54
  | .jne _ => 0x56

/-- The operand bytes of an instruction, in the order of its encoding (R71 to R74). -/
def Instr.operandBytes : Instr → List Byte
  | .ldi a imm => [a, imm]
  | .hlt => []
  | .prn a => [a]
  | .mul a b => [a, b]
  | .push a => [a]
  | .pop a => [a]
  | .call a => [a]
  | .ret => []
  | .add a b => [a, b]
  | .cmp a b => [a, b]
  | .jeq a => [a]
  | .jmp a => [a]
  | .jne a => [a]

/-- The bytes of an instruction, at increasing addresses: the opcode and then its operands (R55, R70). -/
def encode (i : Instr) : List Byte := i.opcode :: i.operandBytes

/-- The three bytes of a window, in address order. -/
def Window.bytes (w : Window) : List Byte := [w.op, w.a, w.b]

/-- The window over a list of bytes; a byte the list does not reach is 0. -/
def Window.ofBytes (bs : List Byte) : Window where
  op := bs.getD 0 0
  a := bs.getD 1 0
  b := bs.getD 2 0

/-- The window of an instruction numbered as the opcode table numbers bits: bit 0 is the least significant bit of the
first byte, the second byte is bits 15..8 and the third bits 23..16. The bits from `nbits` up are 0. -/
def Window.ofTableWord (nbits w : Nat) : Window where
  op := BitVec.ofNat 8 (w % 2 ^ nbits)
  a := BitVec.ofNat 8 (w % 2 ^ nbits / 2 ^ 8)
  b := BitVec.ofNat 8 (w % 2 ^ nbits / 2 ^ 16)

/-- The instruction that `decode` reads from an instruction whose bits are `w`, numbered as the opcode table does. -/
def decodeTableWord (nbits w : Nat) : Option Instr := (decode (Window.ofTableWord nbits w)).toOption

end Sys2Proof
end

