-- ==== Sys2Proof/Config.lean ====
section
/-! DEFINITION. The six parameters of R9, which the spec leaves open and which are fixed for one launch (R33). -/

namespace Sys2Proof

/-- `ADDR_OVERFLOW_POLICY` (R9, R102, R103; 92 D2). -/
inductive AddrOverflowPolicy where
  | fault
  | wrap
  deriving DecidableEq, Repr

/-- `UNKNOWN_OPCODE_POLICY` (R9, R104; 92 D3). -/
inductive UnknownOpcodePolicy where
  | fault
  | stall
  deriving DecidableEq, Repr

/-- `REG_INDEX_POLICY` (R9, R101; 92 D4). -/
inductive RegIndexPolicy where
  | fault
  | low3
  deriving DecidableEq, Repr

/-- `REG_INIT` (R9, R24; 92 D5): R0..R6 unwritten at reset, or a vector of 7 bytes for them. -/
inductive RegInit where
  | unwritten
  | vector (v : Vector Byte 7)
  deriving DecidableEq, Repr

/-- `FLAGS_UNSET_POLICY` (R9, R27; 92 D7). -/
inductive FlagsUnsetPolicy where
  | zero
  | fault
  deriving DecidableEq, Repr

/-- The launch's fixed parameters (R9). `memInit` is `MEM_INIT`, any function from address to byte, held as the
list of the cells that are not zero (log entry 17). -/
structure Config where
  addrOverflow  : AddrOverflowPolicy
  unknownOpcode : UnknownOpcodePolicy
  regIndex      : RegIndexPolicy
  regInit       : RegInit
  flagsUnset    : FlagsUnsetPolicy
  memInit       : List (Nat × Byte)
  deriving DecidableEq, Repr

/-- The defaults of R9. `MEM_INIT` has no default there ("unconstrained"): the zero cells are the model's
(DESIGN CHOICE, unsafe: log entry 3). -/
def Config.specDefault : Config where
  addrOverflow  := .fault
  unknownOpcode := .fault
  regIndex      := .fault
  regInit       := .unwritten
  flagsUnset    := .zero
  memInit       := []

/-- The parameters of `State.reset`: those of `Config.specDefault`, but `REG_INIT` is the vector of seven zeros, so
that every register holds a value at reset (DESIGN CHOICE, unsafe: log entry 2). -/
def Config.atReset : Config :=
  { Config.specDefault with regInit := .vector (Vector.replicate 7 0) }

end Sys2Proof
end

