-- ==== Sys2Proof/Machine/Memory.lean ====
section
/-! DEFINITION. Memory as a canonical list of cells, and its two primitives (R31, R50, R51). -/

namespace Sys2Proof.Machine

/-- Memory: the cells that differ from what an unlisted address reads as, at strictly rising addresses. -/
abbrev Memory := List Host.Cell

/-- The number of cells (R8 MEM_SIZE, R31). -/
def Memory.size : Nat := 256

/-- What an address that is not listed reads as. The spec gives memory no reset contents (`MEM_INIT` is a draw, R59):
any contents can be listed, and `launch` lists those of `MEM_INIT` (DESIGN CHOICE: log entry 3). -/
def Memory.fill : Byte := 0

/-- The byte at an address: `MemRead(addr, 1)` (R51). -/
def Memory.read : Memory → Nat → Byte
  | [], _ => Memory.fill
  | (b, w) :: m, a => if b = a then w else Memory.read m a

/-- Insert a cell before the first cell at a higher address. -/
def Memory.insert : Memory → Nat → Byte → Memory
  | [], a, v => [(a, v)]
  | (b, w) :: m, a, v => if a < b then (a, v) :: (b, w) :: m else (b, w) :: Memory.insert m a v

/-- Store a byte: `MemWrite(addr, 1, v)` (R51). The old cell goes; the new one is listed unless it reads as an
unlisted address does. -/
def Memory.write (m : Memory) (a : Nat) (v : Byte) : Memory :=
  let rest := m.filter (fun c => c.1 != a)
  if v = Memory.fill then rest else Memory.insert rest a v

/-- The canonical form: strictly rising addresses, all inside the address space, and no cell that reads as an unlisted
address does. -/
abbrev Memory.wf (m : Memory) : Prop :=
  (m.map Prod.fst).Pairwise (· < ·) ∧ ∀ c ∈ m, c.1 < Memory.size ∧ c.2 ≠ Memory.fill

/-- The memory with the bytes stored one after another from an address on (R211: "writes bytes sequentially"). -/
def Memory.writeBytes : Memory → Nat → List Byte → Memory
  | m, _, [] => m
  | m, a, v :: vs => Memory.writeBytes (Memory.write m a v) (a + 1) vs

/-- The canonical memory that a list of cells gives; a later cell overrides an earlier one and a cell outside the
address space is no cell (log entry 17). -/
def Memory.ofCells (cells : List Host.Cell) : Memory :=
  cells.foldl (fun m c => if c.1 < Memory.size then Memory.write m c.1 c.2 else m) []

end Sys2Proof.Machine
end

