-- ==== Sys2Proof/Machine/State.lean ====
section
/-! DEFINITION. The machine's state (R33), why a step can stop, and the state after reset (R35). -/

namespace Sys2Proof.Machine

/-- The engine status (R29). -/
inductive Status where
  | running
  | halted
  | fault
  deriving DecidableEq, Repr

/-- The fault causes (R180), in the order of their codes 1 to 7. -/
inductive FaultCause where
  /-- 1: the byte at `pc` is not one of the 13 opcodes. -/
  | unknownOpcode
  /-- 2: the ALU receives an operation other than ADD or MUL. No encoding reaches it (R186). -/
  | aluUnsupported
  /-- 3: a step begins with `pc >= 254` under `ADDR_OVERFLOW_POLICY = fault`. -/
  | fetchOutOfRange
  /-- 4: a non-redirecting instruction would advance `pc` past 255, under `fault`. -/
  | pcOutOfRange
  /-- 5: a register operand byte is 8 or more, under `REG_INDEX_POLICY = fault`. -/
  | badRegister
  /-- 6: a source read of a register before any write, under `REG_INIT = unwritten`. -/
  | unwrittenRegister
  /-- 7: JEQ or JNE reads `FL = 0`, under `FLAGS_UNSET_POLICY = fault`. -/
  | flagsUnset
  deriving DecidableEq, Repr

/-- One record of the diagnostic stream (R32, R95). -/
structure DiagRecord where
  opcode : Byte
  pc     : Byte
  deriving DecidableEq, Repr

/-- Everything the spec gives the machine (R33), and the launch's fixed parameters (`config`, which is not the spec's
state: log entry 1). -/
structure State where
  /-- `x[0]` to `x[7]`; `x[7]` is SP (R20, R21). -/
  regs       : Vector Byte 8
  /-- The written bit of each register (R24). -/
  written    : Vector Bool 8
  /-- The program counter (R25). -/
  pc         : Byte
  /-- The flags register `FL` (R26). -/
  fl         : FlagBits
  /-- The engine status (R29). -/
  status     : Status
  /-- `fault_cause` (R30); meaningful only in FAULT. -/
  faultCause : FaultCause
  /-- `fault_pc` (R30); meaningful only in FAULT. -/
  faultPc    : Byte
  /-- `fault_info`, 8 bits or none (R30); meaningful only in FAULT. -/
  faultInfo  : Option Byte
  /-- The 256 memory cells (R31), canonical (`Memory.wf`). -/
  mem        : List Host.Cell
  /-- The output stream, oldest byte first (R32). -/
  out        : List Byte
  /-- The diagnostic stream, oldest record first (R32). -/
  diag       : List DiagRecord
  /-- The parameters of the launch (R9). -/
  config     : Config
  deriving DecidableEq, Repr

/-- Why a step stops the machine for good, outside every instruction. A fault of the spec is NOT one of these: it is a
next state with status FAULT (R183; log entry 6). -/
inductive Fault where
  /-- Raised by `step` alone, from a state whose status is FAULT with that recorded cause: FAULT is terminal and no step
  is defined from it (R105, R183). Safe: nothing is claimed of what follows. -/
  | terminal (cause : FaultCause)
  deriving DecidableEq, Repr

/-- Why the model gives no next state. No instruction's meaning answers with any of these. -/
inductive Refusal where
  /-- An instruction that has no meaning yet, by its mnemonic; raised by `exec`'s arms only, and no arm does. Safe. -/
  | notModelled (mnemonic : String)
  /-- Raised by `step` alone, from a state whose status is HALTED: the hardware defines no step and no second run from it
  (R105, R214; 93 I2 'refuse'). Safe. -/
  | halted
  /-- Raised by `launch`: an image of more than 256 bytes cannot be placed, and no run exists (R211). Safe. -/
  | imageTooLarge
  /-- Raised by `relaunch`: a launch is possible only while the core is not running (R91). Safe. -/
  | launchWhileRunning
  deriving DecidableEq, Repr

/-- The state after reset (R35), under `Config.atReset`: SP is 0xF4, `pc` and `FL` are 0, the status is RUNNING (the
launch is released), the streams are empty. The spec gives no value for R0..R6 (zero and written here, log entry 2),
for memory (nothing listed, log entry 3) and for the fault record (log entry 4): DESIGN CHOICE, unsafe. -/
def State.reset : State where
  regs       := #v[0, 0, 0, 0, 0, 0, 0, 0xF4]
  written    := #v[true, true, true, true, true, true, true, true]
  pc         := 0
  fl         := 0
  status     := .running
  faultCause := .unknownOpcode
  faultPc    := 0
  faultInfo  := none
  mem        := []
  out        := []
  diag       := []
  config     := Config.atReset

end Sys2Proof.Machine
end

