-- ==== Sys2Proof/Machine/Ops.lean ====
section
/-! DEFINITION. The named operations over registers, memory, `pc`, status and streams (R11), the stack primitives, the
fetch, and taking a fault. -/

namespace Sys2Proof.Machine

/-- What a step or a meaning answers. -/
abbrev Result := Host.Outcome State Fault Refusal

/-- The index of the stack pointer (R8 SP_INDEX, R21). -/
def spIdx : RegIdx := 7

/-- `x[i]`, the value half of the register file's read transaction (R11, R92). -/
def State.readReg (s : State) (i : RegIdx) : Byte := s.regs[i]

/-- The written bit of `Ri`, the other half of the read transaction (R24, R92). -/
def State.isWritten (s : State) (i : RegIdx) : Bool := s.written[i]

/-- `x[i] <- v`: stores the byte and sets the written bit (R22, R24, R92). -/
def State.writeReg (s : State) (i : RegIdx) (v : Byte) : State :=
  { s with regs := s.regs.set i v, written := s.written.set i true }

/-- `SP`, which is `x[7]` (R11, R21). -/
def State.sp (s : State) : Byte := s.readReg spIdx

/-- `MemRead(addr, 1)` (R11, R51). -/
def State.memRead (s : State) (addr : Byte) : Byte := Memory.read s.mem addr.toNat

/-- `MemWrite(addr, 1, v)` (R11, R51). -/
def State.memWrite (s : State) (addr v : Byte) : State := { s with mem := Memory.write s.mem addr.toNat v }

/-- `pc <- target` (R11). -/
def State.setPc (s : State) (target : Byte) : State := { s with pc := target }

/-- `status <- HALTED` (R122). -/
def State.halt (s : State) : State := { s with status := .halted }

/-- `emit Out(v)` (R11, R95). -/
def State.emitOut (s : State) (v : Byte) : State := { s with out := s.out ++ [v] }

/-- `emit Diag(opcode, pc)` (R11, R95). -/
def State.emitDiag (s : State) (opcode : Byte) : State := { s with diag := s.diag ++ [⟨opcode, s.pc⟩] }

/-- The stack primitive `push(v)`: SP is decremented modulo 256, then `v` goes to the cell at the new SP (R140). -/
def State.push (s : State) (v : Byte) : State :=
  let t := s.writeReg spIdx (s.sp - 1)
  t.memWrite t.sp v

/-- The stack primitive `pop() -> v`: the cell at SP is read, then SP is incremented modulo 256 (R141). -/
def State.pop (s : State) : Byte × State :=
  (s.memRead s.sp, s.writeReg spIdx (s.sp + 1))

/-- A fault to be raised: `Fault(cause, info)` (R11). -/
structure Trap where
  cause : FaultCause
  info  : Option Byte
  deriving DecidableEq, Repr

/-- Taking a fault (R183): status FAULT and the fault record; `pc` and everything else keep their values. There is no
handler and no return from a fault (R184, R188). -/
def State.raise (s : State) (e : Trap) : State :=
  { s with status := .fault, faultCause := e.cause, faultPc := s.pc, faultInfo := e.info }

/-- An instruction's meaning: its checks and effects computed from the state `s` at the start of the step. A check that
fails takes the fault at `s`, so no effect of the instruction is visible (R106). -/
def State.attempt (s : State) (c : Except Trap State) : Result :=
  match c with
  | .ok t => .next t
  | .error e => .next (s.raise e)

/-- The fetch window as memory stands, its addresses modulo 256 (R97). Where the range check of R102 applies they do
not wrap. -/
def State.fetchWindow (s : State) : Window where
  op := s.memRead s.pc
  a := s.memRead (s.pc + 1)
  b := s.memRead (s.pc + 2)

/-- Fetch: the range check (R102) and then the three reads (R97). -/
def State.fetch (s : State) : Except Trap Window :=
  match s.config.addrOverflow with
  | .fault => if 254 ≤ s.pc.toNat then .error ⟨.fetchOutOfRange, none⟩ else .ok s.fetchWindow
  | .wrap => .ok s.fetchWindow

/-- A step that decodes to no instruction (R104): a fault, or the report that changes nothing else. -/
def State.unknownOpcode (s : State) (op : Byte) : Result :=
  match s.config.unknownOpcode with
  | .fault => .next (s.raise ⟨.unknownOpcode, some op⟩)
  | .stall => .next (s.emitDiag op)

/-- Store the bytes of a window where the next step fetches its window (R97). -/
def State.storeWindow (s : State) (w : Window) : State :=
  ((s.memWrite s.pc w.op).memWrite (s.pc + 1) w.a).memWrite (s.pc + 2) w.b

end Sys2Proof.Machine
end

