-- ==== Sys2Proof/Machine/Operands.lean ====
section
/-! DEFINITION. The register operands (R75, R101), the reads of source registers (R14), and the next `pc` (R100, R103). -/

namespace Sys2Proof.Machine

/-- The register that a byte's bits 2..0 select (R101, `low3`: `r[2:0]`). -/
def low3 (b : Byte) : RegIdx := ⟨b.toNat % 8, Nat.mod_lt _ (by decide)⟩

/-- The register-index check of one register operand (R101). -/
def State.selectReg (s : State) (b : Byte) : Except Trap RegIdx :=
  if 8 ≤ b.toNat then
    match s.config.regIndex with
    | .fault => .error ⟨.badRegister, some b⟩
    | .low3 => .ok (low3 b)
  else .ok (low3 b)

/-- The written-bit check of a source read (R14, R24): it applies under `REG_INIT = unwritten`. -/
def State.checkWritten (s : State) (i : RegIdx) : Except Trap Unit :=
  match s.config.regInit with
  | .unwritten =>
    if s.isWritten i then .ok () else .error ⟨.unwrittenRegister, some (BitVec.ofNat 8 i.val)⟩
  | .vector _ => .ok ()

/-- A source register operand: the index check, then the written-bit check (R107 items 5 and 6). -/
def State.sourceReg (s : State) (a : Byte) : Except Trap RegIdx := do
  let ra ← s.selectReg a
  s.checkWritten ra
  pure ra

/-- The two source register operands of format F2R: both index checks, `a` first, then both written-bit checks, `a`
first (R101, R107 items 5 and 6). -/
def State.sourcePair (s : State) (a b : Byte) : Except Trap (RegIdx × RegIdx) := do
  let ra ← s.selectReg a
  let rb ← s.selectReg b
  s.checkWritten ra
  s.checkWritten rb
  pure (ra, rb)

/-- `pc + len` for an instruction that does not redirect (R100), with the range check of R103. -/
def State.nextPc (s : State) (len : Nat) : Except Trap Byte :=
  if 255 < s.pc.toNat + len then
    match s.config.addrOverflow with
    | .fault => .error ⟨.pcOutOfRange, none⟩
    | .wrap => .ok (BitVec.ofNat 8 (s.pc.toNat + len))
  else .ok (BitVec.ofNat 8 (s.pc.toNat + len))

end Sys2Proof.Machine
end

