-- ==== Sys2Proof/Machine/Alu.lean ====
section
/-! DEFINITION. The ALU (R93, R130) and the meanings of ADD and MUL (R131, R132). -/

namespace Sys2Proof.Machine

/-- The ALU op select the dispatcher issues (R98, column "ALU op"). -/
inductive AluOp where
  /-- Not an operation: any select but ADD and MUL is the document's `UnsupportedOperation` (R93). -/
  | none
  | add
  | mul
  deriving DecidableEq, Repr

/-- `alu_8bit` (R93): the exact result over the integers, reduced modulo 256; any other op is ALU_UNSUPPORTED, which no
instruction reaches (R186; log entry 12). -/
def alu8 (op : AluOp) (x y : Byte) : Except Trap Byte :=
  match op with
  | .add => .ok (BitVec.ofNat 8 (x.toNat + y.toNat))
  | .mul => .ok (BitVec.ofNat 8 (x.toNat * y.toNat))
  | .none => .error ⟨.aluUnsupported, none⟩

/-- `x[a] <- Y(op, x[a], x[b])`, both read before the write (R93, R131, R132), and the advance by 3. -/
def State.aluStep (s : State) (op : AluOp) (a b : Byte) : Except Trap State := do
  let (ra, rb) ← s.sourcePair a b
  let pc' ← s.nextPc 3
  let y ← alu8 op (s.readReg ra) (s.readReg rb)
  pure ((s.writeReg ra y).setPc pc')

/-- ADD (R131). -/
def execAdd (a b : Byte) (s : State) : Result := s.attempt (s.aluStep .add a b)

/-- MUL (R132). -/
def execMul (a b : Byte) (s : State) : Result := s.attempt (s.aluStep .mul a b)

end Sys2Proof.Machine
end

