-- ==== Sys2Proof/Machine/Flags.lean ====
section
/-! DEFINITION. The flags register: compare, the two branch conditions, and the branch itself (R26, R27, R94). -/

namespace Sys2Proof.Machine

/-- `FL_EQUAL` (R8, R26). -/
def flEqual : FlagBits := 1

/-- `FL_GREATER` (R8, R26). -/
def flGreater : FlagBits := 2

/-- `FL_LESS` (R8, R26). -/
def flLess : FlagBits := 4

/-- What `compare(A, B)` gives: the three-way order of two unsigned bytes (R94, R160). -/
def compareFlags (x y : Byte) : FlagBits :=
  if x.toNat = y.toNat then flEqual
  else if y.toNat < x.toNat then flGreater
  else flLess

/-- `compare(A, B)`, the only writer of `FL` (R28, R94). -/
def State.compare (s : State) (x y : Byte) : State := { s with fl := compareFlags x y }

/-- The condition output `eq` (R94): equality with 1, not a bit test (R161). -/
def State.condEq (s : State) : Bool := s.fl == flEqual

/-- The condition output `ne` (R94): GREATER_THAN or LESS_THAN, not "EQUAL clear" (R163). -/
def State.condNe (s : State) : Bool := s.fl == flGreater || s.fl == flLess

/-- The check of a read of `FL` (R27): reading 0 faults under `FLAGS_UNSET_POLICY = fault`. -/
def State.checkFlags (s : State) : Except Trap Unit :=
  match s.config.flagsUnset with
  | .zero => .ok ()
  | .fault => if s.fl = 0 then .error ⟨.flagsUnset, none⟩ else .ok ()

/-- The next `pc` of a conditional branch: the register, read only when the branch is taken, or else the next
instruction (R98, R161, R163; 92 D15). -/
def State.branchPc (s : State) (taken : Bool) (ra : RegIdx) (len : Nat) : Except Trap Byte :=
  if taken then do
    s.checkWritten ra
    pure (s.readReg ra)
  else s.nextPc len

end Sys2Proof.Machine
end

