-- ==== Sys2Proof/Machine/CompareBranch.lean ====
section
/-! DEFINITION. The meanings of CMP, JEQ, JMP and JNE (R160 to R163). -/

namespace Sys2Proof.Machine

/-- CMP (R160). -/
def execCmp (a b : Byte) (s : State) : Result :=
  s.attempt do
    let (ra, rb) ← s.sourcePair a b
    let pc' ← s.nextPc 3
    pure ((s.compare (s.readReg ra) (s.readReg rb)).setPc pc')

/-- A conditional branch through a register: the index check, the read of `FL`, then the target (R107 items 5 and 6). -/
def State.branchStep (s : State) (taken : Bool) (a : Byte) : Except Trap State := do
  let ra ← s.selectReg a
  s.checkFlags
  let target ← s.branchPc taken ra 2
  pure (s.setPc target)

/-- JEQ (R161). -/
def execJeq (a : Byte) (s : State) : Result := s.attempt (s.branchStep s.condEq a)

/-- JMP (R162). -/
def execJmp (a : Byte) (s : State) : Result :=
  s.attempt do
    let ra ← s.sourceReg a
    pure (s.setPc (s.readReg ra))

/-- JNE (R163). -/
def execJne (a : Byte) (s : State) : Result := s.attempt (s.branchStep s.condNe a)

end Sys2Proof.Machine
end

