-- ==== Sys2Proof/Machine/LoadOutputHalt.lean ====
section
/-! DEFINITION. The meanings of LDI, PRN and HLT (R120 to R122). -/

namespace Sys2Proof.Machine

/-- LDI (R120). -/
def execLdi (a imm : Byte) (s : State) : Result :=
  s.attempt do
    let ra ← s.selectReg a
    let pc' ← s.nextPc 3
    pure ((s.writeReg ra imm).setPc pc')

/-- PRN (R121). -/
def execPrn (a : Byte) (s : State) : Result :=
  s.attempt do
    let ra ← s.sourceReg a
    let pc' ← s.nextPc 2
    pure ((s.emitOut (s.readReg ra)).setPc pc')

/-- HLT (R122). -/
def execHlt (s : State) : Result := .next (s.halt.setPc 0)

end Sys2Proof.Machine
end

