-- ==== Sys2Proof/Machine/Stack.lean ====
section
/-! DEFINITION. The meanings of PUSH and POP (R142, R143). -/

namespace Sys2Proof.Machine

/-- PUSH (R142): the register is read before SP changes. -/
def execPush (a : Byte) (s : State) : Result :=
  s.attempt do
    let ra ← s.sourceReg a
    let pc' ← s.nextPc 2
    pure ((s.push (s.readReg ra)).setPc pc')

/-- POP (R143): the register is written after SP is incremented. -/
def execPop (a : Byte) (s : State) : Result :=
  s.attempt do
    let ra ← s.selectReg a
    let pc' ← s.nextPc 2
    pure ((s.pop.2.writeReg ra s.pop.1).setPc pc')

end Sys2Proof.Machine
end

