-- ==== Sys2Proof/Machine/Subroutine.lean ====
section
/-! DEFINITION. The meanings of CALL and RET (R150, R151). -/

namespace Sys2Proof.Machine

/-- The address of the instruction after a CALL, modulo 256 (R150). -/
def State.returnAddress (s : State) : Byte := s.pc + 2

/-- CALL (R150): the target register is read after the push, so CALL R7 goes to the new SP. -/
def execCall (a : Byte) (s : State) : Result :=
  s.attempt do
    let ra ← s.sourceReg a
    let t := s.push s.returnAddress
    pure (t.setPc (t.readReg ra))

/-- RET (R151). -/
def execRet (s : State) : Result := .next (s.pop.2.setPc s.pop.1)

end Sys2Proof.Machine
end

