-- ==== Sys2Proof/Machine/Step.lean ====
section
/-! DEFINITION. One step: fetch, decode, execute (R97 to R99, R105, R107), and the placing of one instruction where the
next step fetches. -/

namespace Sys2Proof.Machine

/-- One step of the machine, in the order of R107. A step exists only in RUNNING (R105): from HALTED the model refuses
(93 I2) and from FAULT it stops with a fault. -/
def step (s : State) : Host.Outcome State Fault Refusal :=
  match s.status with
  | .halted => .refused .halted
  | .fault => .fault (.terminal s.faultCause)
  | .running =>
    match s.fetch with
    | .error e => .next (s.raise e)
    | .ok w =>
      match decode w with
      | .error (.unknownOpcode op) => s.unknownOpcode op
      | .ok i => exec i s

/-- `s` with the instruction of an opcode-table word stored where `step` fetches its next instruction. It stands for the
host's load of a program (R211; log entry 13). -/
def State.withFetchWord (s : State) (nbits w : Nat) : State := s.storeWindow (Window.ofTableWord nbits w)

end Sys2Proof.Machine
end

