-- ==== Sys2Proof/Machine/HostInterface.lean ====
section
/-! DEFINITION. The host's side (R91, R218): reset and launch (R210, R211), what the host can read, and the rendering of
the output stream (R95). None of it is part of a step. -/

namespace Sys2Proof.Machine

/-- `MEM_INIT(addr)` of a launch (R9, R59). -/
def memInitAt (c : Config) (addr : Byte) : Byte := Memory.read (Memory.ofCells c.memInit) addr.toNat

/-- The value of `x[i]` at reset: SP is 0xF4; R0..R6 follow `REG_INIT` (R24, R35). Under `unwritten` the spec gives R0..R6
no value (91 N2: not to be assumed 0); the 0 held here is the model's (DESIGN CHOICE, unsafe: log entry 19). No source
read sees it, but `inspect` does. -/
def resetReg (c : Config) (i : RegIdx) : Byte :=
  if h : i.val < 7 then
    match c.regInit with
    | .unwritten => 0
    | .vector v => v[i.val]
  else 0xF4

/-- The written bit of `Ri` at reset (R24). -/
def resetWritten (c : Config) (i : RegIdx) : Bool :=
  if i = spIdx then true
  else
    match c.regInit with
    | .unwritten => false
    | .vector _ => true

/-- The reset state of R210 under the launch's parameters, with the status the launch releases it in (R35, R211). -/
def State.resetWith (c : Config) : State where
  regs       := Vector.ofFn (resetReg c)
  written    := Vector.ofFn (resetWritten c)
  pc         := 0
  fl         := 0
  status     := .running
  faultCause := .unknownOpcode
  faultPc    := 0
  faultInfo  := none
  mem        := Memory.ofCells c.memInit
  out        := []
  diag       := []
  config     := c

/-- A launch: reset, then the image from address 0, then RUNNING; an image of more than 256 bytes is refused (R211). -/
def launch (c : Config) (image : List Byte) : Result :=
  if Memory.size < image.length then .refused .imageTooLarge
  else
    let s := State.resetWith c
    .next { s with mem := Memory.writeBytes s.mem 0 image }

/-- A new launch of a core: only while it is not running, and it resets every piece of state (R91, R214). -/
def relaunch (s : State) (c : Config) (image : List Byte) : Result :=
  match s.status with
  | .running => .refused .launchWhileRunning
  | .halted => launch c image
  | .fault => launch c image

/-- The numeric code of a fault cause (R180). -/
def faultCode (c : FaultCause) : Nat :=
  match c with
  | .unknownOpcode => 1
  | .aluUnsupported => 2
  | .fetchOutOfRange => 3
  | .pcOutOfRange => 4
  | .badRegister => 5
  | .unwrittenRegister => 6
  | .flagsUnset => 7

/-- The fault record as the host reads it. -/
structure FaultReport where
  cause : FaultCause
  pc    : Byte
  info  : Option Byte
  deriving DecidableEq, Repr

/-- The `fault` interface (R91): the record, which is meaningful only in FAULT (R30). -/
def State.faultReport (s : State) : Option FaultReport :=
  match s.status with
  | .fault => some ⟨s.faultCause, s.faultPc, s.faultInfo⟩
  | .running => none
  | .halted => none

/-- What `inspect` shows (R91): `x[0..7]`, `pc`, `FL` and memory, and no written bits. For a register never written under
`REG_INIT = unwritten` the spec gives no value to show; the model shows 0 (DESIGN CHOICE, unsafe: log entry 19). -/
structure Inspection where
  regs : Vector Byte 8
  pc   : Byte
  fl   : FlagBits
  mem  : List Host.Cell
  deriving DecidableEq, Repr

/-- The `inspect` interface (R91, R218): a read-only view after the run ends. What it shows of a register never written
under `REG_INIT = unwritten` is the model's choice (log entry 19). -/
def State.inspect (s : State) : Option Inspection :=
  match s.status with
  | .running => none
  | .halted => some ⟨s.regs, s.pc, s.fl, s.mem⟩
  | .fault => some ⟨s.regs, s.pc, s.fl, s.mem⟩

/-- The host's rendering of `out`: the decimal digits of each byte, one line each (R95; the newline character is the
host's, 93 I15). -/
def State.renderOut (s : State) : List String := s.out.map (fun v => toString v.toNat)

end Sys2Proof.Machine
end

