-- ==== Sys2Proof/Safety.lean ====
section
/-! DEFINITION. The terms claims are stated in, written from the spec's tables and not from the meanings: the conditions
an instruction runs under, what it may touch, which faults it may raise, a safe run and the machine's invariant. -/

namespace Sys2Proof

/-- The 13 opcodes (R76). -/
def knownOpcodes : List Byte :=
  [0x82, 0x01, 0x47, 0xA2, 0x45, 0x46, 0x50, 0x11, 0xA0, 0xA7, 0x55, 0x54, 0x56]

/-- The operands that are read as source registers, in the order of their checks (R98, column "source registers read";
R107 item 6). A branch reads its register only if it is taken. SP, which the stack primitives read, is always written
(R24) and is not listed. -/
def Instr.sourceOperands (i : Instr) (fl : FlagBits) : List Byte :=
  match i with
  | .ldi _ _ => []
  | .hlt => []
  | .prn a => [a]
  | .mul a b => [a, b]
  | .push a => [a]
  | .pop _ => []
  | .call a => [a]
  | .ret => []
  | .add a b => [a, b]
  | .cmp a b => [a, b]
  | .jeq a => if fl = 1 then [a] else []
  | .jmp a => [a]
  | .jne a => if fl = 2 ∨ fl = 4 then [a] else []

/-- Whether the instruction reads `FL` (R28: JEQ and JNE alone). -/
def Instr.readsFlags : Instr → Bool
  | .jeq _ => true
  | .jne _ => true
  | .ldi _ _ => false
  | .hlt => false
  | .prn _ => false
  | .mul _ _ => false
  | .push _ => false
  | .pop _ => false
  | .call _ => false
  | .ret => false
  | .add _ _ => false
  | .cmp _ _ => false
  | .jmp _ => false

/-- Whether the instruction advances `pc` by its length rather than setting it itself (R100). -/
def Instr.advances (i : Instr) (fl : FlagBits) : Bool :=
  match i with
  | .ldi _ _ => true
  | .hlt => false
  | .prn _ => true
  | .mul _ _ => true
  | .push _ => true
  | .pop _ => true
  | .call _ => false
  | .ret => false
  | .add _ _ => true
  | .cmp _ _ => true
  | .jeq _ => fl != 1
  | .jmp _ => false
  | .jne _ => fl != 2 && fl != 4

/-- The same instruction with every register operand byte replaced by the byte that bits 2..0 of it give (R101,
`low3`: `r[2:0]`). -/
def Instr.low3Operands : Instr → Instr
  | .ldi a imm => .ldi (BitVec.ofNat 8 (a.toNat % 8)) imm
  | .hlt => .hlt
  | .prn a => .prn (BitVec.ofNat 8 (a.toNat % 8))
  | .mul a b => .mul (BitVec.ofNat 8 (a.toNat % 8)) (BitVec.ofNat 8 (b.toNat % 8))
  | .push a => .push (BitVec.ofNat 8 (a.toNat % 8))
  | .pop a => .pop (BitVec.ofNat 8 (a.toNat % 8))
  | .call a => .call (BitVec.ofNat 8 (a.toNat % 8))
  | .ret => .ret
  | .add a b => .add (BitVec.ofNat 8 (a.toNat % 8)) (BitVec.ofNat 8 (b.toNat % 8))
  | .cmp a b => .cmp (BitVec.ofNat 8 (a.toNat % 8)) (BitVec.ofNat 8 (b.toNat % 8))
  | .jeq a => .jeq (BitVec.ofNat 8 (a.toNat % 8))
  | .jmp a => .jmp (BitVec.ofNat 8 (a.toNat % 8))
  | .jne a => .jne (BitVec.ofNat 8 (a.toNat % 8))

namespace Machine

/-- The causes the instruction can raise in a step (the rows of R181). -/
def causesOf : Instr → List FaultCause
  | .ldi _ _ => [.fetchOutOfRange, .pcOutOfRange, .badRegister]
  | .prn _ => [.fetchOutOfRange, .badRegister, .unwrittenRegister]
  | .hlt => [.fetchOutOfRange]
  | .mul _ _ => [.fetchOutOfRange, .pcOutOfRange, .badRegister, .unwrittenRegister]
  | .add _ _ => [.fetchOutOfRange, .pcOutOfRange, .badRegister, .unwrittenRegister]
  | .push _ => [.fetchOutOfRange, .badRegister, .unwrittenRegister]
  | .pop _ => [.fetchOutOfRange, .badRegister]
  | .call _ => [.fetchOutOfRange, .badRegister, .unwrittenRegister]
  | .ret => [.fetchOutOfRange]
  | .cmp _ _ => [.fetchOutOfRange, .pcOutOfRange, .badRegister, .unwrittenRegister]
  | .jeq _ => [.fetchOutOfRange, .badRegister, .unwrittenRegister, .flagsUnset]
  | .jmp _ => [.fetchOutOfRange, .badRegister, .unwrittenRegister]
  | .jne _ => [.fetchOutOfRange, .badRegister, .unwrittenRegister, .flagsUnset]

/-- The register that an operand byte selects by its low three bits; for a byte of 0..7 it is the byte itself. -/
def operandReg (b : Byte) : RegIdx := Fin.ofNat 8 b.toNat

/-- The register operand byte `b` selects register `r` (R75, R101): it is its number, or the policy is `low3` and `r` is
`b[2:0]`. -/
abbrev Selects (c : Config) (b : Byte) (r : RegIdx) : Prop :=
  b.toNat = r.val ∨ (c.regIndex = .low3 ∧ b.toNat % 8 = r.val)

/-- Reading register `r` as a source is no fault (R14, R24). -/
abbrev Readable (s : State) (r : RegIdx) : Prop :=
  s.config.regInit = .unwritten → s.isWritten r = true

/-- The bytes of an instruction of length `len` at `pc` do not carry `pc` past 255, or the policy wraps (R103). -/
abbrev AdvanceFits (s : State) (len : Nat) : Prop :=
  s.config.addrOverflow = .fault → s.pc.toNat + len ≤ 255

/-- The fetch window of `pc` lies inside memory, or the policy wraps (R102). -/
abbrev FetchFits (s : State) : Prop :=
  s.config.addrOverflow = .fault → s.pc.toNat < 254

/-- The index checks of the instruction pass (R101). -/
abbrev IndexChecksPass (i : Instr) (s : State) : Prop :=
  s.config.regIndex = .fault → ∀ b ∈ i.regOperands, b.toNat < 8

/-- The check of `FL` passes, for an instruction that reads it (R27). -/
abbrev FlagsCheckPasses (i : Instr) (s : State) : Prop :=
  i.readsFlags = true → s.config.flagsUnset = .fault → s.fl ≠ 0

/-- The written-bit checks of the instruction pass (R14). -/
abbrev SourceChecksPass (i : Instr) (s : State) : Prop :=
  s.config.regInit = .unwritten → ∀ b ∈ i.sourceOperands s.fl, s.isWritten (operandReg b) = true

/-- The state after a fault is taken at `s` (R183). -/
def State.faulted (s : State) (cause : FaultCause) (info : Option Byte) : State :=
  { s with status := .fault, faultCause := cause, faultPc := s.pc, faultInfo := info }

/-- The three bytes at `pc`, `pc+1` and `pc+2`, modulo 256 (R97). -/
def windowAt (s : State) : Window :=
  ⟨s.memRead s.pc, s.memRead (BitVec.ofNat 8 (s.pc.toNat + 1)), s.memRead (BitVec.ofNat 8 (s.pc.toNat + 2))⟩

/-- `s` and `t` hold the same general registers and written bits. -/
abbrev SameRegs (s t : State) : Prop :=
  ∀ r, t.readReg r = s.readReg r ∧ t.isWritten r = s.isWritten r

/-- Every byte of memory reads the same in `s` and `t`. -/
abbrev SameMemory (s t : State) : Prop := ∀ a, t.memRead a = s.memRead a

/-- The status and the fault record are unchanged, or `t` is the fault entry at `s`, which changes nothing else (R183).
Outside FAULT the record's value is the model's (log entry 4). -/
abbrev SameStatusOrFault (s t : State) : Prop :=
  (t.status = s.status ∧ t.faultCause = s.faultCause ∧ t.faultPc = s.faultPc ∧ t.faultInfo = s.faultInfo) ∨
    ∃ cause info, t = s.faulted cause info

/-- The fault record of a state in FAULT is one that R180 allows: the cause's `fault_info`, under the policy that raises
it and at an address where it can arise. ALU_UNSUPPORTED never arises (R186). -/
def FaultRecordFits (s : State) : Prop :=
  match s.faultCause with
  | .unknownOpcode => s.config.unknownOpcode = .fault ∧ ∃ op, s.faultInfo = some op ∧ op ∉ knownOpcodes
  | .aluUnsupported => False
  | .fetchOutOfRange => s.config.addrOverflow = .fault ∧ 254 ≤ s.pc.toNat ∧ s.faultInfo = none
  | .pcOutOfRange => s.config.addrOverflow = .fault ∧ s.pc.toNat = 253 ∧ s.faultInfo = none
  | .badRegister => s.config.regIndex = .fault ∧ ∃ b, s.faultInfo = some b ∧ 8 ≤ b.toNat
  | .unwrittenRegister =>
    s.config.regInit = .unwritten ∧ ∃ r : RegIdx, r.val < 7 ∧ s.isWritten r = false ∧
      s.faultInfo = some (BitVec.ofNat 8 r.val)
  | .flagsUnset => s.config.flagsUnset = .fault ∧ s.fl = 0 ∧ s.faultInfo = none

/-- The invariant of the machine: what every launch establishes and every step keeps. -/
structure State.Inv (s : State) : Prop where
  /-- Memory is in its canonical form. -/
  memCanonical : Memory.wf s.mem
  /-- `FL` is 0, EQUAL, GREATER_THAN or LESS_THAN (R26). -/
  flReachable : s.fl = 0 ∨ s.fl = 1 ∨ s.fl = 2 ∨ s.fl = 4
  /-- SP's written bit is set (R24, R106). -/
  spWritten : s.isWritten spIdx = true
  /-- Under a `REG_INIT` vector every written bit is set (R24). -/
  vectorWritten : s.config.regInit ≠ .unwritten → ∀ r, s.isWritten r = true
  /-- A halted machine has `pc = 0` (R122, R213). -/
  haltedAtZero : s.status = .halted → s.pc = 0
  /-- `fault_pc` is `pc` (R180, R183). -/
  faultPcIsPc : s.status = .fault → s.faultPc = s.pc
  /-- The fault record is one that R180 allows. -/
  faultRecordFits : s.status = .fault → FaultRecordFits s
  /-- The diagnostic stream holds unknown opcodes only, and is empty unless the policy is `stall` (R32, R104). -/
  diagUnknown : ∀ d ∈ s.diag, s.config.unknownOpcode = .stall ∧ d.opcode ∉ knownOpcodes

/-- A state of a safe run: the engine is not in FAULT. -/
def State.Safe (s : State) : Prop := s.status ≠ .fault

/-- The run ends successfully in `s` (R213). -/
def State.EndsWell (s : State) : Prop := s.status = .halted

/-- The bytes pushed one after another, the first of the list first (R144). -/
def pushAll (s : State) : List Byte → State
  | [] => s
  | v :: vs => pushAll (s.push v) vs

/-- The bytes of `n` pops, the first popped first, and the state after them (R144). -/
def popAll (s : State) : Nat → List Byte × State
  | 0 => ([], s)
  | n + 1 => (s.pop.1 :: (popAll s.pop.2 n).1, (popAll s.pop.2 n).2)

end Machine

end Sys2Proof
end

