-- ==== Sys2Proof/Certificates/Slice0/Obligations.lean ====
section
/-! DEFINITION. The statements for the provers. Each docstring names the rule of spec/ it formalises. -/

open Sys2Proof Sys2Proof.Machine

/-! ## Encoding -/

/-- R55, R70 to R76: the bytes of every instruction, with every operand at every value, decode to it, whatever bytes
follow them in the fetch window. -/
def Obligations.DecodeOfEncodeIsTheInstruction : Prop :=
  ∀ (i : Instr) (rest : List Byte), decode (Window.ofBytes (encode i ++ rest)) = .ok i

/-- R76, R77: a window that decodes begins with the encoding of the instruction it decodes to. -/
def Obligations.DecodedWindowBeginsWithEncoding : Prop :=
  ∀ (w : Window) (i : Instr), decode w = .ok i → encode i = w.bytes.take i.length

/-- R76, R77: the decode table has exactly these 13 entries, each with its length; a byte that is none of the 13 opcodes
selects no instruction, and no bit field of it is decoded on its own. -/
def Obligations.DecodeTableHasExactly13Entries : Prop :=
  (∀ a b : Byte,
    (decode ⟨0x82, a, b⟩ = .ok (.ldi a b) ∧ (Instr.ldi a b).format = .F2I ∧ (Instr.ldi a b).length = 3) ∧
    (decode ⟨0x01, a, b⟩ = .ok .hlt ∧ Instr.hlt.format = .F0 ∧ Instr.hlt.length = 1) ∧
    (decode ⟨0x47, a, b⟩ = .ok (.prn a) ∧ (Instr.prn a).format = .F1 ∧ (Instr.prn a).length = 2) ∧
    (decode ⟨0xA2, a, b⟩ = .ok (.mul a b) ∧ (Instr.mul a b).format = .F2R ∧ (Instr.mul a b).length = 3) ∧
    (decode ⟨0x45, a, b⟩ = .ok (.push a) ∧ (Instr.push a).format = .F1 ∧ (Instr.push a).length = 2) ∧
    (decode ⟨0x46, a, b⟩ = .ok (.pop a) ∧ (Instr.pop a).format = .F1 ∧ (Instr.pop a).length = 2) ∧
    (decode ⟨0x50, a, b⟩ = .ok (.call a) ∧ (Instr.call a).format = .F1 ∧ (Instr.call a).length = 2) ∧
    (decode ⟨0x11, a, b⟩ = .ok .ret ∧ Instr.ret.format = .F0 ∧ Instr.ret.length = 1) ∧
    (decode ⟨0xA0, a, b⟩ = .ok (.add a b) ∧ (Instr.add a b).format = .F2R ∧ (Instr.add a b).length = 3) ∧
    (decode ⟨0xA7, a, b⟩ = .ok (.cmp a b) ∧ (Instr.cmp a b).format = .F2R ∧ (Instr.cmp a b).length = 3) ∧
    (decode ⟨0x55, a, b⟩ = .ok (.jeq a) ∧ (Instr.jeq a).format = .F1 ∧ (Instr.jeq a).length = 2) ∧
    (decode ⟨0x54, a, b⟩ = .ok (.jmp a) ∧ (Instr.jmp a).format = .F1 ∧ (Instr.jmp a).length = 2) ∧
    (decode ⟨0x56, a, b⟩ = .ok (.jne a) ∧ (Instr.jne a).format = .F1 ∧ (Instr.jne a).length = 2)) ∧
  ∀ w : Window, w.op ∉ knownOpcodes → decode w = .error (.unknownOpcode w.op)

/-- The words of the spec's own examples (R120, R121, R122, R131, R151) decode to the instructions it names, and 0x83 is
no LDI (R77). A sanity statement. -/
def Obligations.ExampleWordsDecodeAsTheSpecSays : Prop :=
  decode ⟨0b10000010, 0b00000000, 0b00001000⟩ = .ok (.ldi 0 8) ∧
  decode ⟨0b01000111, 0b00000000, 0b00000001⟩ = .ok (.prn 0) ∧
  decode ⟨0b00000001, 0, 0⟩ = .ok .hlt ∧
  decode ⟨0b10100000, 0, 1⟩ = .ok (.add 0 1) ∧
  decode ⟨0b00010001, 0xFF, 0xFF⟩ = .ok .ret ∧
  decode ⟨0x83, 0, 0⟩ = .error (.unknownOpcode 0x83) ∧
  decode ⟨0x00, 0, 0⟩ = .error (.unknownOpcode 0x00)

/-! ## The step -/

/-- R97, R98, R99, R107: in RUNNING, when the window at `pc` lies inside memory (or the policy wraps) and decodes to an
instruction, the step is that instruction's execution at the state of the start of the step; nothing is added. -/
def Obligations.StepRunsTheDecodedInstruction : Prop :=
  ∀ (s : State) (i : Instr), s.status = .running → FetchFits s → decode (windowAt s) = .ok i → step s = exec i s

/-- R102: under `fault`, a step that begins with `pc >= 254` faults before anything else, whatever the opcode is; under
`wrap` there is no check and the window's addresses wrap. -/
def Obligations.FetchRangeCheck : Prop :=
  ∀ s : State, s.status = .running →
    (s.config.addrOverflow = .fault → 254 ≤ s.pc.toNat → step s = .next (s.faulted .fetchOutOfRange none)) ∧
    (s.config.addrOverflow = .wrap → s.fetch = .ok (windowAt s))

/-- R104: an unknown opcode faults with the opcode in the record; or, under `stall`, appends one record and changes
nothing else, and every later step does the same, so that after any number of steps the machine stands where it stood
with that many more records. -/
def Obligations.UnknownOpcodeFaultsOrStallsForEver : Prop :=
  ∀ s : State, s.status = .running → FetchFits s → s.memRead s.pc ∉ knownOpcodes →
    (s.config.unknownOpcode = .fault →
      step s = .next (s.faulted .unknownOpcode (some (s.memRead s.pc)))) ∧
    (s.config.unknownOpcode = .stall →
      step s = .next { s with diag := s.diag ++ [⟨s.memRead s.pc, s.pc⟩] } ∧
      ∀ n : Nat, Sys2Proof.core.run n s =
        .next { s with diag := s.diag ++ List.replicate n ⟨s.memRead s.pc, s.pc⟩ })

/-- R105: a step exists exactly while the status is RUNNING; HALTED and FAULT are terminal, so no later event clears a
FAULT. (That the model refuses from HALTED and stops from FAULT is log entry 6.) -/
def Obligations.StepExistsExactlyWhileRunning : Prop :=
  ∀ s : State, (∃ t, step s = .next t) ↔ s.status = .running

/-- R106, R183: a step that ends in FAULT is the fault entry at the state of its start: only the status and the record
change, the record's `fault_pc` is that state's `pc`, and no step follows. -/
def Obligations.FaultsArePreciseAndTerminal : Prop :=
  ∀ s t : State, step s = .next t → t.status = .fault →
    (∃ cause info, t = s.faulted cause info) ∧ ∀ u, step t ≠ .next u

/-- R181: a step that faults raises one of the causes the table gives its instruction; with no instruction at `pc`, only
UNKNOWN_OPCODE or FETCH_OUT_OF_RANGE. -/
def Obligations.FaultCausesAreThoseOfTheTable : Prop :=
  ∀ s t : State, step s = .next t → t.status = .fault →
    (∀ i, decode (windowAt s) = .ok i → t.faultCause ∈ causesOf i) ∧
    (∀ e, decode (windowAt s) = .error e → t.faultCause = .unknownOpcode ∨ t.faultCause = .fetchOutOfRange)

/-- R212: when every check of R107 passes, the step completes without a fault. -/
def Obligations.StepIsFaultFreeWhenTheChecksPass : Prop :=
  ∀ (s : State) (i : Instr), s.status = .running → FetchFits s → decode (windowAt s) = .ok i →
    IndexChecksPass i s → FlagsCheckPasses i s → SourceChecksPass i s →
    (i.advances s.fl = true → AdvanceFits s i.length) → ∃ t, step s = .next t ∧ t.status ≠ .fault

/-- R101: under `fault`, the first register operand of 8 or more, `a` before `b`, faults with that byte in the record,
whether or not the instruction then reads it; under `low3`, an operand selects the register of its bits 2..0. -/
def Obligations.RegisterIndexCheck : Prop :=
  ∀ (i : Instr) (s : State),
    (s.config.regIndex = .fault → ∀ r, i.regOperands.find? (fun b => decide (8 ≤ b.toNat)) = some r →
      exec i s = .next (s.faulted .badRegister (some r))) ∧
    (s.config.regIndex = .low3 → exec i s = exec i.low3Operands s)

/-- R14, R182: under `REG_INIT = unwritten`, once the index checks and the read of `FL` pass, the first source register
that is not written, `a` before `b`, faults with its index in the record, before the advance is checked. -/
def Obligations.UnwrittenSourceFaults : Prop :=
  ∀ (i : Instr) (s : State) (b : Byte), s.config.regInit = .unwritten → IndexChecksPass i s → FlagsCheckPasses i s →
    (i.sourceOperands s.fl).find? (fun b => !s.isWritten (operandReg b)) = some b →
    exec i s = .next (s.faulted .unwrittenRegister (some (BitVec.ofNat 8 (operandReg b).val)))

/-- R100, R103: an instruction that does not redirect, whose other checks pass, advances `pc` by its length, modulo 256
under `wrap`; under `fault`, an advance past 255 faults instead, and in a step that happens only for a 3-byte instruction
at 253. -/
def Obligations.NonRedirectingInstructionsAdvance : Prop :=
  (∀ (i : Instr) (s : State), i.advances s.fl = true → IndexChecksPass i s → FlagsCheckPasses i s →
    SourceChecksPass i s →
    (AdvanceFits s i.length →
      ∃ t, exec i s = .next t ∧ t.status = s.status ∧ t.pc.toNat = (s.pc.toNat + i.length) % 256) ∧
    (¬ AdvanceFits s i.length → exec i s = .next (s.faulted .pcOutOfRange none))) ∧
  ∀ s t : State, step s = .next t → t.status = .fault → t.faultCause = .pcOutOfRange →
    s.pc.toNat = 253 ∧ ∃ i, decode (windowAt s) = .ok i ∧ i.length = 3

/-! ## The instructions: each completes, with this result -/

/-- R120: LDI loads its immediate, independent of prior register state, sets the written bit and advances by 3. -/
def Obligations.LdiLoadsTheImmediate : Prop :=
  ∀ (s : State) (a imm : Byte) (r : RegIdx), Selects s.config a r → AdvanceFits s 3 →
    ∃ t, exec (.ldi a imm) s = .next t ∧ t.readReg r = imm ∧ t.isWritten r = true ∧
      t.pc.toNat = (s.pc.toNat + 3) % 256 ∧ t.status = s.status

/-- R121: PRN appends the register's byte to the output stream and advances by 2; it changes nothing else. That the fault
record is kept outside FAULT is the model's choice (R30 leaves it unspecified; log entry 4). -/
def Obligations.PrnEmitsTheRegister : Prop :=
  ∀ (s : State) (a : Byte) (r : RegIdx), Selects s.config a r → Readable s r → AdvanceFits s 2 →
    exec (.prn a) s =
      .next { s with out := s.out ++ [s.readReg r], pc := BitVec.ofNat 8 (s.pc.toNat + 2) }

/-- R122, R60: HLT sets the status to HALTED and `pc` to 0 from every state, and changes nothing else. That the fault
record is kept outside FAULT is the model's choice (R30 leaves it unspecified; log entry 4). -/
def Obligations.HltHalts : Prop :=
  ∀ s : State, exec .hlt s = .next { s with status := .halted, pc := 0 }

/-- R131: ADD stores the sum of the two registers modulo 256 in the first, without a trap or a flag, and advances by 3. -/
def Obligations.AddStoresTheSumModulo256 : Prop :=
  ∀ (s : State) (a b : Byte) (ra rb : RegIdx), Selects s.config a ra → Selects s.config b rb → Readable s ra →
    Readable s rb → AdvanceFits s 3 →
    ∃ t, exec (.add a b) s = .next t ∧
      (t.readReg ra).toNat = ((s.readReg ra).toNat + (s.readReg rb).toNat) % 256 ∧ t.isWritten ra = true ∧
      t.fl = s.fl ∧ t.pc.toNat = (s.pc.toNat + 3) % 256 ∧ t.status = s.status

/-- R132: MUL stores the low 8 bits of the product in the first register, without a flag, and advances by 3. -/
def Obligations.MulStoresTheProductModulo256 : Prop :=
  ∀ (s : State) (a b : Byte) (ra rb : RegIdx), Selects s.config a ra → Selects s.config b rb → Readable s ra →
    Readable s rb → AdvanceFits s 3 →
    ∃ t, exec (.mul a b) s = .next t ∧
      (t.readReg ra).toNat = ((s.readReg ra).toNat * (s.readReg rb).toNat) % 256 ∧ t.isWritten ra = true ∧
      t.fl = s.fl ∧ t.pc.toNat = (s.pc.toNat + 3) % 256 ∧ t.status = s.status

/-- R142: PUSH decrements SP modulo 256, stores the register's value of before at the new SP (for R7, the old SP) and
advances by 2. -/
def Obligations.PushStoresTheRegister : Prop :=
  ∀ (s : State) (a : Byte) (r : RegIdx), Selects s.config a r → Readable s r → AdvanceFits s 2 →
    ∃ t, exec (.push a) s = .next t ∧ t.sp.toNat = (s.sp.toNat + 255) % 256 ∧ t.isWritten spIdx = true ∧
      t.memRead t.sp = s.readReg r ∧ t.pc.toNat = (s.pc.toNat + 2) % 256 ∧ t.status = s.status

/-- R143: POP loads the register from the cell at SP, sets its written bit, increments SP modulo 256 (for R7 the popped
byte overwrites the increment) and advances by 2. It reads no general register as a source. -/
def Obligations.PopLoadsTheRegister : Prop :=
  ∀ (s : State) (a : Byte) (r : RegIdx), Selects s.config a r → AdvanceFits s 2 →
    ∃ t, exec (.pop a) s = .next t ∧ t.readReg r = s.memRead s.sp ∧ t.isWritten r = true ∧
      (r ≠ spIdx → t.sp.toNat = (s.sp.toNat + 1) % 256) ∧ t.isWritten spIdx = true ∧
      t.pc.toNat = (s.pc.toNat + 2) % 256 ∧ t.status = s.status

/-- R150: CALL pushes the address of the instruction after it and goes to the register's value, read after the push: for
R7 that is the new SP. The order of the push and the read, which shows for R7 alone, is a reading that the spec marks as
its own (93 I5: "A fixed reading"), and DEDUCED in the model (log entry 10): unsafe if the hardware reads first. -/
def Obligations.CallPushesTheReturnAddressAndJumps : Prop :=
  ∀ (s : State) (a : Byte) (r : RegIdx), Selects s.config a r → Readable s r →
    ∃ t, exec (.call a) s = .next t ∧ t.sp.toNat = (s.sp.toNat + 255) % 256 ∧ t.isWritten spIdx = true ∧
      (t.memRead t.sp).toNat = (s.pc.toNat + 2) % 256 ∧ (r ≠ spIdx → t.pc = s.readReg r) ∧
      (r = spIdx → t.pc = t.sp) ∧ t.status = s.status

/-- R151: RET goes to the byte at SP and increments SP modulo 256, from every state. -/
def Obligations.RetPopsThePc : Prop :=
  ∀ s : State, ∃ t, exec .ret s = .next t ∧ t.pc = s.memRead s.sp ∧ t.sp.toNat = (s.sp.toNat + 1) % 256 ∧
    t.isWritten spIdx = true ∧ t.status = s.status

/-- R160: CMP sets `FL` to exactly one of 1, 2 and 4 by the unsigned order of the two registers, discarding its previous
value, advances by 3 and changes nothing else. That the fault record is kept outside FAULT is the model's choice (R30
leaves it unspecified; log entry 4). -/
def Obligations.CmpSetsTheThreeWayFlag : Prop :=
  ∀ (s : State) (a b : Byte) (ra rb : RegIdx), Selects s.config a ra → Selects s.config b rb → Readable s ra →
    Readable s rb → AdvanceFits s 3 →
    ∃ f, exec (.cmp a b) s = .next { s with fl := f, pc := BitVec.ofNat 8 (s.pc.toNat + 3) } ∧
      ((s.readReg ra).toNat = (s.readReg rb).toNat → f = 1) ∧
      ((s.readReg rb).toNat < (s.readReg ra).toNat → f = 2) ∧
      ((s.readReg ra).toNat < (s.readReg rb).toNat → f = 4)

/-- R162: JMP goes to the register's value and changes nothing else. That the fault record is kept outside FAULT is the
model's choice (R30 leaves it unspecified; log entry 4). -/
def Obligations.JmpGoesToTheRegister : Prop :=
  ∀ (s : State) (a : Byte) (r : RegIdx), Selects s.config a r → Readable s r →
    exec (.jmp a) s = .next { s with pc := s.readReg r }

/-- R161: JEQ completes: taken exactly when `FL` is 1, and then it goes to the register's value; otherwise, when the
policy lets `FL` be read, it goes on by 2 without reading the register. That the fault record is kept outside
FAULT is the model's choice (R30 leaves it unspecified; log entry 4), and so is the outcome at the unreachable `FL` values
3, 5, 6 and 7 (93 I11; log entry 11). -/
def Obligations.JeqCompletes : Prop :=
  ∀ (s : State) (a : Byte) (r : RegIdx), Selects s.config a r → (s.fl = 1 → Readable s r) →
    (s.fl ≠ 1 → AdvanceFits s 2) → (s.config.flagsUnset = .fault → s.fl ≠ 0) →
    exec (.jeq a) s =
      .next { s with pc := if s.fl = 1 then s.readReg r else BitVec.ofNat 8 (s.pc.toNat + 2) }

/-- R163: JNE completes: taken exactly when `FL` is 2 or 4, and then it goes to the register's value; otherwise, when the
policy lets `FL` be read, it goes on by 2 without reading the register. That the fault record is kept outside
FAULT is the model's choice (R30 leaves it unspecified; log entry 4), and so is the outcome at the unreachable `FL` values
3, 5, 6 and 7 (93 I11; log entry 11). -/
def Obligations.JneCompletes : Prop :=
  ∀ (s : State) (a : Byte) (r : RegIdx), Selects s.config a r → (s.fl = 2 ∨ s.fl = 4 → Readable s r) →
    (¬ (s.fl = 2 ∨ s.fl = 4) → AdvanceFits s 2) → (s.config.flagsUnset = .fault → s.fl ≠ 0) →
    exec (.jne a) s =
      .next { s with pc := if s.fl = 2 ∨ s.fl = 4 then s.readReg r else BitVec.ofNat 8 (s.pc.toNat + 2) }

/-- R165, R27, R182: the outcome of each value of `FL` for the two branches, for a register operand that selects `r`. A
row asks that `r` be readable only where its branch is taken, and that the advance fit only where it is not: at `FL = 0`
under `fault` both branches raise FLAGS_UNSET whether or not `r` is written and whether or not the advance fits. That a
branch keeps the fault record outside FAULT is the model's choice (R30 leaves it unspecified; log entry 4). -/
def Obligations.ConditionalBranchMatrix : Prop :=
  ∀ (s : State) (a : Byte) (r : RegIdx), Selects s.config a r →
    let taken (i : Instr) : Prop := Readable s r → exec i s = .next { s with pc := s.readReg r }
    let notTaken (i : Instr) : Prop :=
      AdvanceFits s 2 → exec i s = .next { s with pc := BitVec.ofNat 8 (s.pc.toNat + 2) }
    let unset (i : Instr) : Prop := exec i s = .next (s.faulted .flagsUnset none)
    (s.fl = 1 → taken (.jeq a) ∧ notTaken (.jne a)) ∧
    (s.fl = 2 → notTaken (.jeq a) ∧ taken (.jne a)) ∧
    (s.fl = 4 → notTaken (.jeq a) ∧ taken (.jne a)) ∧
    (s.fl = 0 → s.config.flagsUnset = .zero → notTaken (.jeq a) ∧ notTaken (.jne a)) ∧
    (s.fl = 0 → s.config.flagsUnset = .fault → unset (.jeq a) ∧ unset (.jne a))

/-! ## Frames: what an instruction leaves unchanged, in every next state, a fault's among them -/

/-- R120, R131, R132, R28, R53: LDI, ADD and MUL change no register but the one operand `a` selects, no flag, no byte of
memory, no stream; status and record only by a fault. -/
def Obligations.FrameOfLdiAddMul : Prop :=
  ∀ (s t : State) (i : Instr) (a b : Byte), i = .ldi a b ∨ i = .add a b ∨ i = .mul a b → exec i s = .next t →
    (∀ r, ¬ Selects s.config a r → t.readReg r = s.readReg r ∧ t.isWritten r = s.isWritten r) ∧
    t.fl = s.fl ∧ SameMemory s t ∧ t.out = s.out ∧ t.diag = s.diag ∧ t.config = s.config ∧ SameStatusOrFault s t

/-- R121, R122, R160 to R163, R53: PRN, HLT, CMP, JEQ, JMP and JNE change no register and no byte of memory; no flag but
for CMP, no output but for PRN, and the status and record only by a fault but for HLT, which sets the status alone. -/
def Obligations.FrameOfInstructionsWithoutRegisterResult : Prop :=
  ∀ (s t : State) (i : Instr) (a b : Byte),
    i = .prn a ∨ i = .hlt ∨ i = .cmp a b ∨ i = .jeq a ∨ i = .jmp a ∨ i = .jne a → exec i s = .next t →
    SameRegs s t ∧ SameMemory s t ∧ t.diag = s.diag ∧ t.config = s.config ∧
    (i ≠ .cmp a b → t.fl = s.fl) ∧ (i ≠ .prn a → t.out = s.out) ∧
    (i ≠ .hlt → SameStatusOrFault s t) ∧
    (i = .hlt → t.faultCause = s.faultCause ∧ t.faultPc = s.faultPc ∧ t.faultInfo = s.faultInfo)

/-- R140, R142, R150, R53: PUSH and CALL change no register but SP, no flag, no stream, and no byte of memory but the one
at SP - 1 modulo 256; status and record only by a fault. -/
def Obligations.FrameOfPushAndCall : Prop :=
  ∀ (s t : State) (i : Instr) (a : Byte), i = .push a ∨ i = .call a → exec i s = .next t →
    (∀ r, r ≠ spIdx → t.readReg r = s.readReg r ∧ t.isWritten r = s.isWritten r) ∧
    (∀ b, b ≠ s.sp - 1 → t.memRead b = s.memRead b) ∧
    t.fl = s.fl ∧ t.out = s.out ∧ t.diag = s.diag ∧ t.config = s.config ∧ SameStatusOrFault s t

/-- R141, R143, R151, R53: POP changes no register but SP and the one its operand selects, RET none but SP; neither
changes a flag, a byte of memory or a stream; status and record only by a fault. -/
def Obligations.FrameOfPopAndRet : Prop :=
  ∀ (s t : State) (i : Instr) (a : Byte), i = .pop a ∨ i = .ret → exec i s = .next t →
    (∀ r, r ≠ spIdx → ¬ (i = .pop a ∧ Selects s.config a r) →
      t.readReg r = s.readReg r ∧ t.isWritten r = s.isWritten r) ∧
    t.fl = s.fl ∧ SameMemory s t ∧ t.out = s.out ∧ t.diag = s.diag ∧ t.config = s.config ∧ SameStatusOrFault s t

/-! ## Rules of the whole machine -/

/-- R28: a step changes `FL` only by CMP; and only JEQ and JNE read it: every other instruction, run with another value
of `FL`, leaves the same state but for `FL`, and but for CMP it leaves that value as it was. -/
def Obligations.FlagsAreWrittenByCmpAndReadByBranchesOnly : Prop :=
  (∀ s t : State, step s = .next t → t.fl ≠ s.fl → ∃ a b, decode (windowAt s) = .ok (.cmp a b)) ∧
  ∀ (i : Instr) (s t : State) (f : FlagBits), i.readsFlags = false → exec i s = .next t →
    ∃ u, exec i { s with fl := f } = .next u ∧ { u with fl := t.fl } = t ∧
      ((∀ a b, i ≠ .cmp a b) → u.fl = f ∧ t.fl = s.fl)

/-- R53: a step changes a byte of memory only by PUSH or CALL, and only the byte at SP - 1 modulo 256. -/
def Obligations.MemoryIsWrittenByPushAndCallOnly : Prop :=
  ∀ (s t : State) (b : Byte), step s = .next t → t.memRead b ≠ s.memRead b →
    b.toNat = (s.sp.toNat + 255) % 256 ∧ ∃ a, decode (windowAt s) = .ok (.push a) ∨ decode (windowAt s) = .ok (.call a)

/-- R29, R60, R213: a step that leaves HALTED is a HLT, and it leaves every register, `FL`, every memory cell and the
streams as they were, with `pc` 0. That it keeps the fault record too is the model's choice (R30 leaves it unspecified
outside FAULT; log entry 4). -/
def Obligations.OnlyHltHaltsAndItClearsNothing : Prop :=
  ∀ s t : State, step s = .next t → t.status = .halted →
    decode (windowAt s) = .ok .hlt ∧ t = { s with status := .halted, pc := 0 }

/-- R32: both streams are empty at launch; a step appends to `out` exactly when it is a PRN that completes, and then the
one byte of its register, and to `diag` exactly when it is an unknown opcode under `stall`, and then its one record; and
the program reads neither: from a state with other stream contents before it, the step does the same and appends the
same. -/
def Obligations.StreamsAppendOnlyAndAreNeverRead : Prop :=
  (∀ c image s, launch c image = .next s → s.out = [] ∧ s.diag = []) ∧
  (∀ s t : State, step s = .next t →
    (∀ a r, decode (windowAt s) = .ok (.prn a) → Selects s.config a r → t.status ≠ .fault →
      t.out = s.out ++ [s.readReg r]) ∧
    ((∀ a, decode (windowAt s) ≠ .ok (.prn a)) ∨ t.status = .fault → t.out = s.out) ∧
    (s.config.unknownOpcode = .stall → s.memRead s.pc ∉ knownOpcodes → t.status ≠ .fault →
      t.diag = s.diag ++ [⟨s.memRead s.pc, s.pc⟩]) ∧
    (s.config.unknownOpcode = .fault ∨ s.memRead s.pc ∈ knownOpcodes ∨ t.status = .fault → t.diag = s.diag)) ∧
  ∀ (s t : State) (o : List Byte) (d : List DiagRecord), step s = .next t →
    step { s with out := o ++ s.out, diag := d ++ s.diag } = .next { t with out := o ++ t.out, diag := d ++ t.diag }

/-- R33: the launch's parameters are fixed: no step changes them. They are a field of the model's State (log entry 1). -/
def Obligations.NoStepChangesTheParameters : Prop :=
  ∀ s t : State, step s = .next t → t.config = s.config

/-- R24, R92: no step clears a written bit, and a register whose value a step changes is written after it. -/
def Obligations.WrittenBitsAreSetAndNeverCleared : Prop :=
  ∀ (s t : State) (r : RegIdx), step s = .next t →
    (s.isWritten r = true → t.isWritten r = true) ∧ (t.readReg r ≠ s.readReg r → t.isWritten r = true)

/-- The invariant that every step keeps: memory is canonical, `FL` is one of 0, 1, 2, 4 (R26), SP is written (R24), a
halted machine has `pc` 0 (R122), a fault record is one that R180 allows, with `fault_pc` the `pc` (R183), and `diag`
holds unknown opcodes only (R104). -/
def Obligations.StepKeepsTheInvariant : Prop :=
  ∀ s t : State, s.Inv → step s = .next t → t.Inv

/-- The invariant holds at `State.reset`, which rests on the values the model chose there (log entries 2, 3 and 4). -/
def Obligations.ResetMeetsTheInvariant : Prop := State.reset.Inv

/-- The invariant holds after every launch, for every choice of the parameters and every image (R211). -/
def Obligations.LaunchMeetsTheInvariant : Prop :=
  ∀ (c : Config) (image : List Byte) (s : State), launch c image = .next s → s.Inv

/-! ## The sub-blocks -/

/-- R93, R186: the ALU gives the exact sum and product modulo 256, fails on any other operation, and no step raises that
failure. -/
def Obligations.AluIsExactModulo256 : Prop :=
  (∀ x y : Byte, ∃ v w, alu8 .add x y = .ok v ∧ v.toNat = (x.toNat + y.toNat) % 256 ∧
    alu8 .mul x y = .ok w ∧ w.toNat = (x.toNat * y.toNat) % 256 ∧
    alu8 .none x y = .error ⟨.aluUnsupported, none⟩) ∧
  ∀ s t : State, step s = .next t → t.status = .fault → t.faultCause ≠ .aluUnsupported

/-- R140: `push(v)` decrements SP modulo 256 and writes `v` at the decremented SP; with SP = 0 that is address 255. Every
other register and byte is as before. -/
def Obligations.PushPrimitive : Prop :=
  ∀ (s : State) (v : Byte),
    (s.push v).sp.toNat = (s.sp.toNat + 255) % 256 ∧ (s.push v).memRead (s.push v).sp = v ∧
    (s.sp = 0 → (s.push v).sp = 255) ∧
    (∀ r, r ≠ spIdx → (s.push v).readReg r = s.readReg r) ∧
    ∀ b, b ≠ (s.push v).sp → (s.push v).memRead b = s.memRead b

/-- R141: `pop()` reads the byte at SP and increments SP modulo 256; with SP = 255 it leaves SP = 0. Every other register
and every byte is as before. -/
def Obligations.PopPrimitive : Prop :=
  ∀ s : State,
    s.pop.1 = s.memRead s.sp ∧ s.pop.2.sp.toNat = (s.sp.toNat + 1) % 256 ∧ (s.sp = 255 → s.pop.2.sp = 0) ∧
    (∀ r, r ≠ spIdx → s.pop.2.readReg r = s.readReg r) ∧ SameMemory s s.pop.2

/-- R94: `compare(A, B)` sets `FL` to 1, 2 or 4 by the unsigned order, `eq` is `FL = 1` and `ne` is `FL = 2` or `FL = 4`,
so both are false while `FL = 0`. -/
def Obligations.FlagsRegisterCompareAndConditions : Prop :=
  ∀ (s : State) (x y : Byte),
    (x.toNat = y.toNat → (s.compare x y).fl = 1) ∧ (y.toNat < x.toNat → (s.compare x y).fl = 2) ∧
    (x.toNat < y.toNat → (s.compare x y).fl = 4) ∧
    (s.condEq = true ↔ s.fl = 1) ∧ (s.condNe = true ↔ s.fl = 2 ∨ s.fl = 4)

/-! ## Properties over several steps -/

/-- R144: `n` pushes followed by `n` pops, for `n <= 256`, yield the bytes in reverse order and restore SP. -/
def Obligations.StackIsLastInFirstOut : Prop :=
  ∀ (s : State) (vs : List Byte), vs.length ≤ 256 →
    (popAll (pushAll s vs) vs.length).1 = vs.reverse ∧ (popAll (pushAll s vs) vs.length).2.sp = s.sp

/-- R152: a CALL, then any execution that leaves SP and the return-address cell as the CALL left them, then RET, resumes
at the address after the CALL with SP as before it. -/
def Obligations.CallThenRetResumesAfterTheCall : Prop :=
  ∀ (s t u : State) (a : Byte) (r : RegIdx), Selects s.config a r → Readable s r → exec (.call a) s = .next t →
    u.sp = t.sp → u.memRead t.sp = t.memRead t.sp →
    ∃ v, exec .ret u = .next v ∧ v.pc.toNat = (s.pc.toNat + 2) % 256 ∧ v.sp = s.sp

/-- R110: applying the same ADD twice adds twice and the same MUL twice multiplies twice, for two different registers;
and the value that ADD or MUL computes does not depend on the order of its operands. -/
def Obligations.AddAndMulAccumulateAndCommute : Prop :=
  ∀ (s : State) (a b : Byte) (ra rb : RegIdx), Selects s.config a ra → Selects s.config b rb → ra ≠ rb →
    Readable s ra → Readable s rb → AdvanceFits s 6 →
    (∃ t u, exec (.add a b) s = .next t ∧ exec (.add a b) t = .next u ∧
      (u.readReg ra).toNat = ((s.readReg ra).toNat + 2 * (s.readReg rb).toNat) % 256) ∧
    (∃ t u, exec (.mul a b) s = .next t ∧ exec (.mul a b) t = .next u ∧
      (u.readReg ra).toNat = ((s.readReg ra).toNat * (s.readReg rb).toNat * (s.readReg rb).toNat) % 256) ∧
    (∃ t u, exec (.add a b) s = .next t ∧ exec (.add b a) s = .next u ∧ t.readReg ra = u.readReg rb) ∧
    ∃ t u, exec (.mul a b) s = .next t ∧ exec (.mul b a) s = .next u ∧ t.readReg ra = u.readReg rb

/-- R82: `PUSH Rb; POP Ra` with neither register R7 moves `Rb` to `Ra` and restores SP, overwriting the cell at SP - 1;
and ADD of a register that holds 0xFF decrements by 1 modulo 256. -/
def Obligations.MoveAndDecrementIdioms : Prop :=
  (∀ (s : State) (a b : Byte) (ra rb : RegIdx), Selects s.config a ra → Selects s.config b rb → ra ≠ spIdx →
    rb ≠ spIdx → Readable s rb → AdvanceFits s 4 →
    ∃ t u, exec (.push b) s = .next t ∧ exec (.pop a) t = .next u ∧ u.readReg ra = s.readReg rb ∧ u.sp = s.sp ∧
      u.memRead (s.sp - 1) = s.readReg rb) ∧
  ∀ (s : State) (a k : Byte) (ra rk : RegIdx), Selects s.config a ra → Selects s.config k rk → Readable s ra →
    Readable s rk → AdvanceFits s 3 → s.readReg rk = 0xFF →
    ∃ t, exec (.add a k) s = .next t ∧ t.readReg ra = s.readReg ra - 1

/-- R64, R216: the byte that PUSH or CALL stores is the byte that a later fetch reads at that address, in whichever
position of its fetch window the address stands. The later state `u` is any state in which the cell still holds what was
stored (the bytes are those "as last written"), the very next one among them; a CALL R7 fetches the cell it wrote as its
next opcode. -/
def Obligations.StackWriteIsFetched : Prop :=
  ∀ (s : State) (i : Instr) (a v : Byte) (r : RegIdx), Selects s.config a r → Readable s r →
    (i = .push a ∧ AdvanceFits s 2 ∧ v = s.readReg r) ∨ (i = .call a ∧ v = BitVec.ofNat 8 (s.pc.toNat + 2)) →
    ∃ t, exec i s = .next t ∧
      ∀ u : State, u.memRead t.sp = t.memRead t.sp → FetchFits u →
        ∃ w, u.fetch = .ok w ∧ (u.pc = t.sp → w.op = v) ∧ (u.pc + 1 = t.sp → w.a = v) ∧ (u.pc + 2 = t.sp → w.b = v)

/-! ## Reset and launch -/

/-- R35: reset under any parameters: SP is 0xF4 and written, R0..R6 follow `REG_INIT`, `pc` and `FL` are 0, the status is
RUNNING once the launch releases it, the streams are empty and each cell is `MEM_INIT`. Nothing is said of the fault
record, which the spec leaves unspecified. -/
def Obligations.ResetEstablishesTheConstructionState : Prop :=
  ∀ c : Config,
    let s := State.resetWith c
    s.sp = 0xF4 ∧ s.isWritten spIdx = true ∧
    (c.regInit = .unwritten → ∀ r, r ≠ spIdx → s.isWritten r = false) ∧
    (∀ v, c.regInit = .vector v → ∀ k (h : k < 7),
      s.readReg ⟨k, by omega⟩ = v[k] ∧ s.isWritten ⟨k, by omega⟩ = true) ∧
    s.pc = 0 ∧ s.fl = 0 ∧ s.status = .running ∧ s.out = [] ∧ s.diag = [] ∧ s.config = c ∧ ∀ a, s.memRead a = memInitAt c a

/-- R59, R211: a launch of an image of at most 256 bytes, an empty one among them, puts its bytes from address 0, leaves
`MEM_INIT` in every other cell and the reset state in everything else, and the engine is RUNNING at `pc` 0; a longer
image is refused. -/
def Obligations.LaunchPlacesTheImageAndRuns : Prop :=
  ∀ (c : Config) (image : List Byte),
    (image.length ≤ 256 → ∃ s, launch c image = .next s ∧ s.status = .running ∧ s.pc = 0 ∧
      { s with mem := (State.resetWith c).mem } = State.resetWith c ∧
      (∀ k (h : k < image.length), s.memRead (BitVec.ofNat 8 k) = image[k]) ∧
      ∀ a : Byte, image.length ≤ a.toNat → s.memRead a = memInitAt c a) ∧
    (256 < image.length → launch c image = .refused .imageTooLarge)

/-- R91, R214: a new launch is possible only while the core is not running, and it resets every piece of state: it
depends on nothing of the state it replaces. -/
def Obligations.NewLaunchResetsEverything : Prop :=
  ∀ (s : State) (c : Config) (image : List Byte),
    (s.status = .running → relaunch s c image = .refused .launchWhileRunning) ∧
    (s.status ≠ .running → relaunch s c image = launch c image)
end

