-- ==== Sys2Proof/Laws/Decode.lean ====
section
/-! SUPPORT. What the decoder can answer (R76, R77, R79). -/

namespace Sys2Proof

/-- The lookup finds a row of that opcode, or there is none in the table. -/
theorem decodeLookup_cases (op : Byte) (rows : List DecodeRow) :
    (∃ row ∈ rows, row.opcode = op ∧ decodeLookup op rows = some row) ∨
      ((∀ row ∈ rows, row.opcode ≠ op) ∧ decodeLookup op rows = none) := by
  induction rows with
  | nil => simp [decodeLookup]
  | cons row rows ih =>
    by_cases h : row.opcode = op
    · exact .inl ⟨row, List.mem_cons_self, h, by simp [decodeLookup, h]⟩
    · rcases ih with ⟨r, hr, hop, hl⟩ | ⟨hn, hl⟩
      · exact .inl ⟨r, List.mem_cons_of_mem _ hr, hop, by simp [decodeLookup, h, hl]⟩
      · exact .inr ⟨by simpa [h] using hn, by simp [decodeLookup, h, hl]⟩

/-- The decoder answers what the row of the opcode builds, or refuses the opcode by name. -/
theorem decode_cases (w : Window) :
    (∃ row ∈ decodeTable, row.opcode = w.op ∧ decode w = .ok (row.build w.a w.b)) ∨
      ((∀ row ∈ decodeTable, row.opcode ≠ w.op) ∧ decode w = .error (.unknownOpcode w.op)) := by
  unfold decode
  rcases decodeLookup_cases w.op decodeTable with ⟨row, hr, hop, hl⟩ | ⟨hn, hl⟩
  · exact .inl ⟨row, hr, hop, by rw [hl]⟩
  · exact .inr ⟨hn, by rw [hl]⟩

/-- A refusal of the decoder names the opcode byte of the window. -/
theorem decode_error_op {w : Window} {e : DecodeError} (h : decode w = .error e) : e = .unknownOpcode w.op := by
  rcases decode_cases w with ⟨_, _, _, h'⟩ | ⟨_, h'⟩ <;> rw [h'] at h
  · cases h
  · exact (Except.error.inj h).symm

/-- The bytes of an encoded instruction are as many as its length (R70). -/
theorem encode_length (i : Instr) : (encode i).length = i.length := by cases i <;> rfl

end Sys2Proof
end

