-- ==== Sys2Proof/Laws/Memory.lean ====
section
/-! SUPPORT. The laws of memory: read after write, the canonical form kept by every operation, and equal reads give equal
canonical memories (R51, R59). -/

namespace Sys2Proof.Machine

@[simp] theorem Memory.read_nil (a : Nat) : Memory.read [] a = Memory.fill := rfl

theorem Memory.read_cons (c : Host.Cell) (m : Memory) (a : Nat) :
    Memory.read (c :: m) a = if c.1 = a then c.2 else Memory.read m a := rfl

/-- Dropping the cells of one address leaves every other address as it read, and that one as unlisted. -/
theorem Memory.read_filter (m : Memory) (a b : Nat) :
    Memory.read (m.filter (fun c => c.1 != a)) b = if b = a then Memory.fill else Memory.read m b := by
  induction m with
  | nil => simp
  | cons c m ih =>
    by_cases h : c.1 = a
    · simp only [List.filter_cons, h, bne_self_eq_false, Bool.false_eq_true, if_false, ih, Memory.read_cons]
      split <;> grind
    · simp only [List.filter_cons, bne_iff_ne, ne_eq, h, not_false_eq_true, if_true, Memory.read_cons, ih]
      split <;> grind

/-- Inserting a cell at an address that is not listed: that address reads the byte, every other one as before. -/
theorem Memory.read_insert (m : Memory) (a b : Nat) (v : Byte) (h : ∀ c ∈ m, c.1 ≠ a) :
    Memory.read (Memory.insert m a v) b = if b = a then v else Memory.read m b := by
  induction m with
  | nil => simp [Memory.insert, Memory.read_cons, eq_comm]
  | cons c m ih =>
    simp only [Memory.insert]
    split
    · simp [Memory.read_cons, eq_comm]
    · simp only [Memory.read_cons, ih (fun d hd => h d (List.mem_cons_of_mem _ hd))]
      have := h c List.mem_cons_self
      split <;> grind

/-- Read after write (R51): the address written reads the byte, every other address reads as before. -/
theorem Memory.read_write (m : Memory) (a b : Nat) (v : Byte) :
    Memory.read (Memory.write m a v) b = if b = a then v else Memory.read m b := by
  simp only [Memory.write]
  split
  · next h => simp only [Memory.read_filter]; split <;> simp [h]
  · rw [Memory.read_insert _ _ _ _ (by simp), Memory.read_filter]; split <;> rfl

theorem Memory.mem_insert (m : Memory) (a : Nat) (v : Byte) (c : Host.Cell) :
    c ∈ Memory.insert m a v ↔ c = (a, v) ∨ c ∈ m := by
  induction m with
  | nil => simp [Memory.insert]
  | cons d m ih =>
    simp only [Memory.insert]
    split <;> simp [ih]
    tauto

theorem Memory.insert_sorted (m : Memory) (a : Nat) (v : Byte) (h : ∀ c ∈ m, c.1 ≠ a)
    (hs : (m.map Prod.fst).Pairwise (· < ·)) : ((Memory.insert m a v).map Prod.fst).Pairwise (· < ·) := by
  induction m with
  | nil => simp [Memory.insert]
  | cons c m ih =>
    simp only [List.map_cons, List.pairwise_cons] at hs
    simp only [Memory.insert]
    have hc := h c List.mem_cons_self
    split
    · next hlt =>
      simp only [List.map_cons, List.pairwise_cons, List.mem_cons, forall_eq_or_imp]
      refine ⟨⟨hlt, fun x hx => ?_⟩, hs⟩
      exact Nat.lt_trans hlt (hs.1 x hx)
    · next hge =>
      simp only [List.map_cons, List.pairwise_cons]
      refine ⟨fun x hx => ?_, ih (fun d hd => h d (List.mem_cons_of_mem _ hd)) hs.2⟩
      simp only [List.mem_map, Memory.mem_insert] at hx
      obtain ⟨d, rfl | hd, rfl⟩ := hx
      · simp only at hge ⊢
        omega
      · exact hs.1 d.1 (List.mem_map_of_mem hd)

/-- Every write inside the address space keeps the canonical form. -/
theorem Memory.write_wf {m : Memory} {a : Nat} (h : Memory.wf m) (ha : a < Memory.size) (v : Byte) :
    Memory.wf (Memory.write m a v) := by
  have hf : Memory.wf (m.filter (fun c => c.1 != a)) :=
    ⟨h.1.sublist (List.filter_sublist.map _), fun c hc => h.2 c (List.mem_filter.mp hc).1⟩
  simp only [Memory.write]
  split
  · exact hf
  · next hv =>
    refine ⟨Memory.insert_sorted _ _ _ (by simp) hf.1, fun c hc => ?_⟩
    rcases (Memory.mem_insert _ _ _ _).mp hc with rfl | hc
    · exact ⟨ha, hv⟩
    · exact hf.2 c hc

theorem Memory.nil_wf : Memory.wf [] := by decide

theorem Memory.ofCells_wf (cells : List Host.Cell) : Memory.wf (Memory.ofCells cells) := by
  have go : ∀ (cs : List Host.Cell) (m : Memory), Memory.wf m →
      Memory.wf (cs.foldl (fun m c => if c.1 < Memory.size then Memory.write m c.1 c.2 else m) m) := by
    intro cs
    induction cs with
    | nil => exact fun m hm => hm
    | cons c cs ih =>
      intro m hm
      refine ih _ ?_
      beta_reduce
      split
      · next hc => exact Memory.write_wf hm hc _
      · exact hm
  exact go cells [] Memory.nil_wf

/-- Storing bytes one after another keeps the canonical form while they stay inside the address space. -/
theorem Memory.writeBytes_wf {m : Memory} {a : Nat} (vs : List Byte) (h : Memory.wf m)
    (ha : a + vs.length ≤ Memory.size) : Memory.wf (Memory.writeBytes m a vs) := by
  induction vs generalizing m a with
  | nil => exact h
  | cons v vs ih =>
    simp only [List.length_cons] at ha
    exact ih (Memory.write_wf h (by omega) v) (by omega)

/-- What the bytes stored one after another read as: the k-th byte at the k-th address, and all else as before. -/
theorem Memory.read_writeBytes (m : Memory) (a : Nat) (vs : List Byte) (b : Nat) :
    Memory.read (Memory.writeBytes m a vs) b =
      if h : a ≤ b ∧ b < a + vs.length then vs[b - a]'(by omega) else Memory.read m b := by
  induction vs generalizing m a with
  | nil =>
    rw [dif_neg (by simp only [List.length_nil]; omega)]
    rfl
  | cons v vs ih =>
    rw [Memory.writeBytes, ih, Memory.read_write]
    by_cases hb : b = a
    · subst hb
      rw [dif_neg (by omega), if_pos rfl, dif_pos (by simp only [List.length_cons]; omega)]
      simp
    · by_cases h : a + 1 ≤ b ∧ b < a + 1 + vs.length
      · rw [dif_pos h, dif_pos (by simp only [List.length_cons]; omega)]
        simp [show b - a = (b - (a + 1)) + 1 by omega]
      · rw [dif_neg h, if_neg hb, dif_neg (by simp only [List.length_cons]; omega)]

theorem Memory.read_of_lt {m : Memory} {a : Nat} (h : ∀ c ∈ m, a < c.1) : Memory.read m a = Memory.fill := by
  induction m with
  | nil => rfl
  | cons c m ih =>
    have := h c List.mem_cons_self
    rw [Memory.read_cons, if_neg (by omega), ih (fun d hd => h d (List.mem_cons_of_mem _ hd))]

theorem Memory.wf_cons {c : Host.Cell} {m : Memory} (h : Memory.wf (c :: m)) :
    Memory.wf m ∧ (∀ d ∈ m, c.1 < d.1) ∧ c.2 ≠ Memory.fill := by
  obtain ⟨hs, hc⟩ := h
  simp only [List.map_cons, List.pairwise_cons] at hs
  exact ⟨⟨hs.2, fun d hd => hc d (List.mem_cons_of_mem _ hd)⟩, fun d hd => hs.1 _ (List.mem_map_of_mem hd),
    (hc c List.mem_cons_self).2⟩

/-- Two canonical memories that read the same are the same data. -/
theorem Memory.ext_of_read {m n : Memory} (hm : Memory.wf m) (hn : Memory.wf n)
    (h : ∀ a, Memory.read m a = Memory.read n a) : m = n := by
  induction m generalizing n with
  | nil =>
    cases n with
    | nil => rfl
    | cons d n =>
      have := h d.1
      rw [Memory.read_cons, if_pos rfl] at this
      exact absurd this.symm (Memory.wf_cons hn).2.2
  | cons c m ih =>
    obtain ⟨hm', hcm, hcv⟩ := Memory.wf_cons hm
    cases n with
    | nil =>
      have := h c.1
      rw [Memory.read_cons, if_pos rfl] at this
      exact absurd this hcv
    | cons d n =>
      obtain ⟨hn', hdn, hdv⟩ := Memory.wf_cons hn
      have hcd : c.1 = d.1 := by
        rcases Nat.lt_trichotomy c.1 d.1 with hlt | heq | hgt
        · have hc := h c.1
          rw [Memory.read_cons, if_pos rfl, Memory.read_cons, if_neg (by omega),
            Memory.read_of_lt (fun e he => Nat.lt_trans hlt (hdn e he))] at hc
          exact absurd hc hcv
        · exact heq
        · have hd := h d.1
          rw [Memory.read_cons, if_neg (by omega), Memory.read_of_lt (fun e he => Nat.lt_trans hgt (hcm e he)),
            Memory.read_cons, if_pos rfl] at hd
          exact absurd hd.symm hdv
      have hv : c.2 = d.2 := by
        have := h c.1
        rwa [Memory.read_cons, if_pos rfl, Memory.read_cons, if_pos hcd.symm] at this
      rw [Prod.ext hcd hv]
      congr 1
      refine ih hm' hn' (fun a => ?_)
      by_cases ha : c.1 = a
      · subst ha
        rw [Memory.read_of_lt hcm, Memory.read_of_lt (fun e he => hcd ▸ hdn e he)]
      · have := h a
        rwa [Memory.read_cons, if_neg ha, Memory.read_cons, if_neg (hcd ▸ ha)] at this

end Sys2Proof.Machine
end

