-- ==== Sys2Proof/Laws/State.lean ====
section
/-! SUPPORT. One lemma per field per named update of the state, true by unfolding, so that no later proof unfolds a
record update; and the same for the three accessors. -/

namespace Sys2Proof.Machine

variable (s : State)

/-! ### writeReg -/

@[simp] theorem State.writeReg_regs (i : RegIdx) (v : Byte) : (s.writeReg i v).regs = s.regs.set i v := rfl
@[simp] theorem State.writeReg_written (i : RegIdx) (v : Byte) : (s.writeReg i v).written = s.written.set i true := rfl
@[simp] theorem State.writeReg_pc (i : RegIdx) (v : Byte) : (s.writeReg i v).pc = s.pc := rfl
@[simp] theorem State.writeReg_fl (i : RegIdx) (v : Byte) : (s.writeReg i v).fl = s.fl := rfl
@[simp] theorem State.writeReg_status (i : RegIdx) (v : Byte) : (s.writeReg i v).status = s.status := rfl
@[simp] theorem State.writeReg_faultCause (i : RegIdx) (v : Byte) : (s.writeReg i v).faultCause = s.faultCause := rfl
@[simp] theorem State.writeReg_faultPc (i : RegIdx) (v : Byte) : (s.writeReg i v).faultPc = s.faultPc := rfl
@[simp] theorem State.writeReg_faultInfo (i : RegIdx) (v : Byte) : (s.writeReg i v).faultInfo = s.faultInfo := rfl
@[simp] theorem State.writeReg_mem (i : RegIdx) (v : Byte) : (s.writeReg i v).mem = s.mem := rfl
@[simp] theorem State.writeReg_out (i : RegIdx) (v : Byte) : (s.writeReg i v).out = s.out := rfl
@[simp] theorem State.writeReg_diag (i : RegIdx) (v : Byte) : (s.writeReg i v).diag = s.diag := rfl
@[simp] theorem State.writeReg_config (i : RegIdx) (v : Byte) : (s.writeReg i v).config = s.config := rfl
@[simp] theorem State.memRead_writeReg (i : RegIdx) (v : Byte) (b : Byte) : (s.writeReg i v).memRead b = s.memRead b := rfl

/-! ### memWrite -/

@[simp] theorem State.memWrite_regs (a v : Byte) : (s.memWrite a v).regs = s.regs := rfl
@[simp] theorem State.memWrite_written (a v : Byte) : (s.memWrite a v).written = s.written := rfl
@[simp] theorem State.memWrite_pc (a v : Byte) : (s.memWrite a v).pc = s.pc := rfl
@[simp] theorem State.memWrite_fl (a v : Byte) : (s.memWrite a v).fl = s.fl := rfl
@[simp] theorem State.memWrite_status (a v : Byte) : (s.memWrite a v).status = s.status := rfl
@[simp] theorem State.memWrite_faultCause (a v : Byte) : (s.memWrite a v).faultCause = s.faultCause := rfl
@[simp] theorem State.memWrite_faultPc (a v : Byte) : (s.memWrite a v).faultPc = s.faultPc := rfl
@[simp] theorem State.memWrite_faultInfo (a v : Byte) : (s.memWrite a v).faultInfo = s.faultInfo := rfl
@[simp] theorem State.memWrite_mem (a v : Byte) : (s.memWrite a v).mem = Memory.write s.mem a.toNat v := rfl
@[simp] theorem State.memWrite_out (a v : Byte) : (s.memWrite a v).out = s.out := rfl
@[simp] theorem State.memWrite_diag (a v : Byte) : (s.memWrite a v).diag = s.diag := rfl
@[simp] theorem State.memWrite_config (a v : Byte) : (s.memWrite a v).config = s.config := rfl
@[simp] theorem State.readReg_memWrite (a v : Byte) (r : RegIdx) : (s.memWrite a v).readReg r = s.readReg r := rfl
@[simp] theorem State.isWritten_memWrite (a v : Byte) (r : RegIdx) : (s.memWrite a v).isWritten r = s.isWritten r := rfl
@[simp] theorem State.sp_memWrite (a v : Byte) : (s.memWrite a v).sp = s.sp := rfl

/-! ### setPc -/

@[simp] theorem State.setPc_regs (p : Byte) : (s.setPc p).regs = s.regs := rfl
@[simp] theorem State.setPc_written (p : Byte) : (s.setPc p).written = s.written := rfl
@[simp] theorem State.setPc_pc (p : Byte) : (s.setPc p).pc = p := rfl
@[simp] theorem State.setPc_fl (p : Byte) : (s.setPc p).fl = s.fl := rfl
@[simp] theorem State.setPc_status (p : Byte) : (s.setPc p).status = s.status := rfl
@[simp] theorem State.setPc_faultCause (p : Byte) : (s.setPc p).faultCause = s.faultCause := rfl
@[simp] theorem State.setPc_faultPc (p : Byte) : (s.setPc p).faultPc = s.faultPc := rfl
@[simp] theorem State.setPc_faultInfo (p : Byte) : (s.setPc p).faultInfo = s.faultInfo := rfl
@[simp] theorem State.setPc_mem (p : Byte) : (s.setPc p).mem = s.mem := rfl
@[simp] theorem State.setPc_out (p : Byte) : (s.setPc p).out = s.out := rfl
@[simp] theorem State.setPc_diag (p : Byte) : (s.setPc p).diag = s.diag := rfl
@[simp] theorem State.setPc_config (p : Byte) : (s.setPc p).config = s.config := rfl
@[simp] theorem State.readReg_setPc (p : Byte) (r : RegIdx) : (s.setPc p).readReg r = s.readReg r := rfl
@[simp] theorem State.isWritten_setPc (p : Byte) (r : RegIdx) : (s.setPc p).isWritten r = s.isWritten r := rfl
@[simp] theorem State.sp_setPc (p : Byte) : (s.setPc p).sp = s.sp := rfl
@[simp] theorem State.memRead_setPc (p : Byte) (b : Byte) : (s.setPc p).memRead b = s.memRead b := rfl

/-! ### halt -/

@[simp] theorem State.halt_regs : (s.halt).regs = s.regs := rfl
@[simp] theorem State.halt_written : (s.halt).written = s.written := rfl
@[simp] theorem State.halt_pc : (s.halt).pc = s.pc := rfl
@[simp] theorem State.halt_fl : (s.halt).fl = s.fl := rfl
@[simp] theorem State.halt_status : (s.halt).status = .halted := rfl
@[simp] theorem State.halt_faultCause : (s.halt).faultCause = s.faultCause := rfl
@[simp] theorem State.halt_faultPc : (s.halt).faultPc = s.faultPc := rfl
@[simp] theorem State.halt_faultInfo : (s.halt).faultInfo = s.faultInfo := rfl
@[simp] theorem State.halt_mem : (s.halt).mem = s.mem := rfl
@[simp] theorem State.halt_out : (s.halt).out = s.out := rfl
@[simp] theorem State.halt_diag : (s.halt).diag = s.diag := rfl
@[simp] theorem State.halt_config : (s.halt).config = s.config := rfl
@[simp] theorem State.readReg_halt (r : RegIdx) : (s.halt).readReg r = s.readReg r := rfl
@[simp] theorem State.isWritten_halt (r : RegIdx) : (s.halt).isWritten r = s.isWritten r := rfl
@[simp] theorem State.sp_halt : (s.halt).sp = s.sp := rfl
@[simp] theorem State.memRead_halt (b : Byte) : (s.halt).memRead b = s.memRead b := rfl

/-! ### emitOut -/

@[simp] theorem State.emitOut_regs (v : Byte) : (s.emitOut v).regs = s.regs := rfl
@[simp] theorem State.emitOut_written (v : Byte) : (s.emitOut v).written = s.written := rfl
@[simp] theorem State.emitOut_pc (v : Byte) : (s.emitOut v).pc = s.pc := rfl
@[simp] theorem State.emitOut_fl (v : Byte) : (s.emitOut v).fl = s.fl := rfl
@[simp] theorem State.emitOut_status (v : Byte) : (s.emitOut v).status = s.status := rfl
@[simp] theorem State.emitOut_faultCause (v : Byte) : (s.emitOut v).faultCause = s.faultCause := rfl
@[simp] theorem State.emitOut_faultPc (v : Byte) : (s.emitOut v).faultPc = s.faultPc := rfl
@[simp] theorem State.emitOut_faultInfo (v : Byte) : (s.emitOut v).faultInfo = s.faultInfo := rfl
@[simp] theorem State.emitOut_mem (v : Byte) : (s.emitOut v).mem = s.mem := rfl
@[simp] theorem State.emitOut_out (v : Byte) : (s.emitOut v).out = s.out ++ [v] := rfl
@[simp] theorem State.emitOut_diag (v : Byte) : (s.emitOut v).diag = s.diag := rfl
@[simp] theorem State.emitOut_config (v : Byte) : (s.emitOut v).config = s.config := rfl
@[simp] theorem State.readReg_emitOut (v : Byte) (r : RegIdx) : (s.emitOut v).readReg r = s.readReg r := rfl
@[simp] theorem State.isWritten_emitOut (v : Byte) (r : RegIdx) : (s.emitOut v).isWritten r = s.isWritten r := rfl
@[simp] theorem State.sp_emitOut (v : Byte) : (s.emitOut v).sp = s.sp := rfl
@[simp] theorem State.memRead_emitOut (v : Byte) (b : Byte) : (s.emitOut v).memRead b = s.memRead b := rfl

/-! ### emitDiag -/

@[simp] theorem State.emitDiag_regs (op : Byte) : (s.emitDiag op).regs = s.regs := rfl
@[simp] theorem State.emitDiag_written (op : Byte) : (s.emitDiag op).written = s.written := rfl
@[simp] theorem State.emitDiag_pc (op : Byte) : (s.emitDiag op).pc = s.pc := rfl
@[simp] theorem State.emitDiag_fl (op : Byte) : (s.emitDiag op).fl = s.fl := rfl
@[simp] theorem State.emitDiag_status (op : Byte) : (s.emitDiag op).status = s.status := rfl
@[simp] theorem State.emitDiag_faultCause (op : Byte) : (s.emitDiag op).faultCause = s.faultCause := rfl
@[simp] theorem State.emitDiag_faultPc (op : Byte) : (s.emitDiag op).faultPc = s.faultPc := rfl
@[simp] theorem State.emitDiag_faultInfo (op : Byte) : (s.emitDiag op).faultInfo = s.faultInfo := rfl
@[simp] theorem State.emitDiag_mem (op : Byte) : (s.emitDiag op).mem = s.mem := rfl
@[simp] theorem State.emitDiag_out (op : Byte) : (s.emitDiag op).out = s.out := rfl
@[simp] theorem State.emitDiag_diag (op : Byte) : (s.emitDiag op).diag = s.diag ++ [⟨op, s.pc⟩] := rfl
@[simp] theorem State.emitDiag_config (op : Byte) : (s.emitDiag op).config = s.config := rfl
@[simp] theorem State.readReg_emitDiag (op : Byte) (r : RegIdx) : (s.emitDiag op).readReg r = s.readReg r := rfl
@[simp] theorem State.isWritten_emitDiag (op : Byte) (r : RegIdx) : (s.emitDiag op).isWritten r = s.isWritten r := rfl
@[simp] theorem State.sp_emitDiag (op : Byte) : (s.emitDiag op).sp = s.sp := rfl
@[simp] theorem State.memRead_emitDiag (op : Byte) (b : Byte) : (s.emitDiag op).memRead b = s.memRead b := rfl

/-! ### compare -/

@[simp] theorem State.compare_regs (x y : Byte) : (s.compare x y).regs = s.regs := rfl
@[simp] theorem State.compare_written (x y : Byte) : (s.compare x y).written = s.written := rfl
@[simp] theorem State.compare_pc (x y : Byte) : (s.compare x y).pc = s.pc := rfl
@[simp] theorem State.compare_fl (x y : Byte) : (s.compare x y).fl = compareFlags x y := rfl
@[simp] theorem State.compare_status (x y : Byte) : (s.compare x y).status = s.status := rfl
@[simp] theorem State.compare_faultCause (x y : Byte) : (s.compare x y).faultCause = s.faultCause := rfl
@[simp] theorem State.compare_faultPc (x y : Byte) : (s.compare x y).faultPc = s.faultPc := rfl
@[simp] theorem State.compare_faultInfo (x y : Byte) : (s.compare x y).faultInfo = s.faultInfo := rfl
@[simp] theorem State.compare_mem (x y : Byte) : (s.compare x y).mem = s.mem := rfl
@[simp] theorem State.compare_out (x y : Byte) : (s.compare x y).out = s.out := rfl
@[simp] theorem State.compare_diag (x y : Byte) : (s.compare x y).diag = s.diag := rfl
@[simp] theorem State.compare_config (x y : Byte) : (s.compare x y).config = s.config := rfl
@[simp] theorem State.readReg_compare (x y : Byte) (r : RegIdx) : (s.compare x y).readReg r = s.readReg r := rfl
@[simp] theorem State.isWritten_compare (x y : Byte) (r : RegIdx) : (s.compare x y).isWritten r = s.isWritten r := rfl
@[simp] theorem State.sp_compare (x y : Byte) : (s.compare x y).sp = s.sp := rfl
@[simp] theorem State.memRead_compare (x y : Byte) (b : Byte) : (s.compare x y).memRead b = s.memRead b := rfl

/-! ### raise -/

@[simp] theorem State.raise_regs (e : Trap) : (s.raise e).regs = s.regs := rfl
@[simp] theorem State.raise_written (e : Trap) : (s.raise e).written = s.written := rfl
@[simp] theorem State.raise_pc (e : Trap) : (s.raise e).pc = s.pc := rfl
@[simp] theorem State.raise_fl (e : Trap) : (s.raise e).fl = s.fl := rfl
@[simp] theorem State.raise_status (e : Trap) : (s.raise e).status = .fault := rfl
@[simp] theorem State.raise_faultCause (e : Trap) : (s.raise e).faultCause = e.cause := rfl
@[simp] theorem State.raise_faultPc (e : Trap) : (s.raise e).faultPc = s.pc := rfl
@[simp] theorem State.raise_faultInfo (e : Trap) : (s.raise e).faultInfo = e.info := rfl
@[simp] theorem State.raise_mem (e : Trap) : (s.raise e).mem = s.mem := rfl
@[simp] theorem State.raise_out (e : Trap) : (s.raise e).out = s.out := rfl
@[simp] theorem State.raise_diag (e : Trap) : (s.raise e).diag = s.diag := rfl
@[simp] theorem State.raise_config (e : Trap) : (s.raise e).config = s.config := rfl
@[simp] theorem State.readReg_raise (e : Trap) (r : RegIdx) : (s.raise e).readReg r = s.readReg r := rfl
@[simp] theorem State.isWritten_raise (e : Trap) (r : RegIdx) : (s.raise e).isWritten r = s.isWritten r := rfl
@[simp] theorem State.sp_raise (e : Trap) : (s.raise e).sp = s.sp := rfl
@[simp] theorem State.memRead_raise (e : Trap) (b : Byte) : (s.raise e).memRead b = s.memRead b := rfl

/-- The register file is read after a write (R92): the written register holds the byte, the others are as before. -/
theorem State.readReg_writeReg (i r : RegIdx) (v : Byte) :
    (s.writeReg i v).readReg r = if i = r then v else s.readReg r := by
  simp [State.readReg, Vector.getElem_set, Fin.ext_iff]

@[simp] theorem State.readReg_writeReg_self (i : RegIdx) (v : Byte) : (s.writeReg i v).readReg i = v := by
  simp [State.readReg_writeReg]

theorem State.readReg_writeReg_ne {i r : RegIdx} (h : r ≠ i) (v : Byte) :
    (s.writeReg i v).readReg r = s.readReg r := by
  simp [State.readReg_writeReg, Ne.symm h]

/-- A register write sets the written bit of its register and no other (R24, R92). -/
theorem State.isWritten_writeReg (i r : RegIdx) (v : Byte) :
    (s.writeReg i v).isWritten r = (decide (i = r) || s.isWritten r) := by
  by_cases h : i = r <;> simp [State.isWritten, Vector.getElem_set, Fin.ext_iff] at h ⊢

@[simp] theorem State.isWritten_writeReg_self (i : RegIdx) (v : Byte) : (s.writeReg i v).isWritten i = true := by
  simp [State.isWritten_writeReg]

theorem State.isWritten_writeReg_ne {i r : RegIdx} (h : r ≠ i) (v : Byte) :
    (s.writeReg i v).isWritten r = s.isWritten r := by
  simp [State.isWritten_writeReg, Ne.symm h]

theorem State.sp_eq : s.sp = s.readReg spIdx := rfl

@[simp] theorem State.sp_writeReg_spIdx (v : Byte) : (s.writeReg spIdx v).sp = v := by
  simp [State.sp_eq]

theorem State.sp_writeReg_ne {i : RegIdx} (h : i ≠ spIdx) (v : Byte) : (s.writeReg i v).sp = s.sp := by
  simp [State.sp_eq, State.readReg_writeReg_ne s (Ne.symm h)]

end Sys2Proof.Machine
end

