-- ==== Sys2Proof/Laws/Ops.lean ====
section
/-! SUPPORT. What each shared operation over the state can do: memory accesses, push and pop, taking a fault, fetch and
the unknown-opcode step. -/

namespace Sys2Proof.Machine

variable (s : State)

/-- Read after write through the state (R51). -/
theorem State.memRead_memWrite (a b v : Byte) :
    (s.memWrite a v).memRead b = if b = a then v else s.memRead b := by
  simp [State.memRead, Memory.read_write, BitVec.toNat_inj]

/-- A store keeps memory canonical. -/
theorem State.memWrite_wf (a v : Byte) (h : Memory.wf s.mem) : Memory.wf (s.memWrite a v).mem :=
  Memory.write_wf h a.isLt v

/-! ### push and pop (R140, R141) -/

theorem State.push_eq (v : Byte) : s.push v = (s.writeReg spIdx (s.sp - 1)).memWrite (s.sp - 1) v := by
  simp [State.push]

@[simp] theorem State.sp_push (v : Byte) : (s.push v).sp = s.sp - 1 := by simp [State.push_eq]

theorem State.memRead_push (v b : Byte) :
    (s.push v).memRead b = if b = s.sp - 1 then v else s.memRead b := by
  simp [State.push_eq, State.memRead_memWrite]

theorem State.readReg_push_ne {r : RegIdx} (h : r ≠ spIdx) (v : Byte) :
    (s.push v).readReg r = s.readReg r := by
  simp [State.push_eq, State.readReg_writeReg_ne s h]

theorem State.isWritten_push_ne {r : RegIdx} (h : r ≠ spIdx) (v : Byte) :
    (s.push v).isWritten r = s.isWritten r := by
  simp [State.push_eq, State.isWritten_writeReg_ne s h]

@[simp] theorem State.readReg_push_spIdx (v : Byte) : (s.push v).readReg spIdx = s.sp - 1 := s.sp_push v

@[simp] theorem State.isWritten_push_spIdx (v : Byte) : (s.push v).isWritten spIdx = true := by
  simp [State.push_eq]

@[simp] theorem State.push_pc (v : Byte) : (s.push v).pc = s.pc := rfl
@[simp] theorem State.push_fl (v : Byte) : (s.push v).fl = s.fl := rfl
@[simp] theorem State.push_status (v : Byte) : (s.push v).status = s.status := rfl
@[simp] theorem State.push_faultCause (v : Byte) : (s.push v).faultCause = s.faultCause := rfl
@[simp] theorem State.push_faultPc (v : Byte) : (s.push v).faultPc = s.faultPc := rfl
@[simp] theorem State.push_faultInfo (v : Byte) : (s.push v).faultInfo = s.faultInfo := rfl
@[simp] theorem State.push_out (v : Byte) : (s.push v).out = s.out := rfl
@[simp] theorem State.push_diag (v : Byte) : (s.push v).diag = s.diag := rfl
@[simp] theorem State.push_config (v : Byte) : (s.push v).config = s.config := rfl

theorem State.push_wf (v : Byte) (h : Memory.wf s.mem) : Memory.wf (s.push v).mem := by
  rw [State.push_eq]
  exact State.memWrite_wf _ _ _ h

theorem State.pop_fst : s.pop.1 = s.memRead s.sp := rfl

theorem State.pop_snd : s.pop.2 = s.writeReg spIdx (s.sp + 1) := rfl

/-- A pop right after a push gives the byte back and restores SP. -/
theorem State.pop_push_fst (v : Byte) : (s.push v).pop.1 = v := by
  simp [State.pop_fst, State.memRead_push]

theorem State.sp_pop_push (v : Byte) : (s.push v).pop.2.sp = s.sp := by
  simp [State.pop_snd]

/-! ### Checks, effects and faults -/

/-- What a meaning can answer: the state its effects give, or the fault of its first failing check, taken at `s`. -/
theorem State.attempt_eq_next {c : Except Trap State} {t : State} :
    s.attempt c = .next t ↔ c = .ok t ∨ ∃ e, c = .error e ∧ t = s.raise e := by
  cases c <;> simp [State.attempt, eq_comm]

/-- A meaning always answers a next state. -/
theorem State.attempt_next (c : Except Trap State) : ∃ t, s.attempt c = .next t := by
  cases c <;> simp [State.attempt]

@[simp] theorem State.attempt_ok (t : State) : s.attempt (.ok t) = .next t := rfl

@[simp] theorem State.attempt_error (e : Trap) : s.attempt (.error e) = .next (s.raise e) := rfl

/-- What the fetch can answer (R97, R102). -/
theorem State.fetch_cases :
    (s.config.addrOverflow = .fault ∧ 254 ≤ s.pc.toNat ∧ s.fetch = .error ⟨.fetchOutOfRange, none⟩) ∨
      ((s.config.addrOverflow = .fault → s.pc.toNat < 254) ∧ s.fetch = .ok s.fetchWindow) := by
  unfold State.fetch
  cases s.config.addrOverflow with
  | fault => by_cases h : 254 ≤ s.pc.toNat <;> simp [h]; omega
  | wrap => simp

/-- What an unknown opcode's step can answer (R104). -/
theorem State.unknownOpcode_cases (op : Byte) :
    (s.config.unknownOpcode = .fault ∧ s.unknownOpcode op = .next (s.raise ⟨.unknownOpcode, some op⟩)) ∨
      (s.config.unknownOpcode = .stall ∧ s.unknownOpcode op = .next (s.emitDiag op)) := by
  unfold State.unknownOpcode
  cases s.config.unknownOpcode <;> simp

end Sys2Proof.Machine
end

