-- ==== Sys2Proof/Laws/Operands.lean ====
section
/-! SUPPORT. What each operand form can answer: the register it selects or the fault it raises (R14, R101, R103, R27). -/

namespace Sys2Proof.Machine

variable (s : State)

@[simp] theorem Except.ok_bind' {α β : Type} (a : α) (f : α → Except Trap β) : (Except.ok a >>= f) = f a := rfl

@[simp] theorem Except.error_bind' {α β : Type} (e : Trap) (f : α → Except Trap β) :
    ((Except.error e : Except Trap α) >>= f) = Except.error e := rfl

@[simp] theorem Except.pure_ok' {α : Type} (a : α) : (pure a : Except Trap α) = Except.ok a := rfl

/-- A sequence of checks succeeds when its first check does and the rest does. -/
theorem Except.bind_eq_ok' {α β : Type} {x : Except Trap α} {f : α → Except Trap β} {b : β} :
    (x >>= f) = .ok b ↔ ∃ a, x = .ok a ∧ f a = .ok b := by
  cases x <;> simp

/-- A sequence of checks fails with its first failing check. -/
theorem Except.bind_eq_error' {α β : Type} {x : Except Trap α} {f : α → Except Trap β} {e : Trap} :
    (x >>= f) = .error e ↔ x = .error e ∨ ∃ a, x = .ok a ∧ f a = .error e := by
  cases x <;> simp

@[simp] theorem low3_val (b : Byte) : (low3 b).val = b.toNat % 8 := rfl

/-- What the index check can answer (R101). -/
theorem State.selectReg_cases (b : Byte) :
    (8 ≤ b.toNat ∧ s.config.regIndex = .fault ∧ s.selectReg b = .error ⟨.badRegister, some b⟩) ∨
      ((s.config.regIndex = .fault → b.toNat < 8) ∧ s.selectReg b = .ok (low3 b)) := by
  unfold State.selectReg
  by_cases h : 8 ≤ b.toNat
  · cases hp : s.config.regIndex <;> simp [h]
  · simp [h]; omega

theorem State.selectReg_eq_ok {b : Byte} {r : RegIdx} :
    s.selectReg b = .ok r ↔ (s.config.regIndex = .fault → b.toNat < 8) ∧ low3 b = r := by
  rcases s.selectReg_cases b with ⟨h8, hp, h⟩ | ⟨hp, h⟩ <;> simp [h]
  · intro h'; have := h' hp; omega
  · intro; exact hp

theorem State.selectReg_eq_error {b : Byte} {e : Trap} :
    s.selectReg b = .error e ↔
      s.config.regIndex = .fault ∧ 8 ≤ b.toNat ∧ e = ⟨.badRegister, some b⟩ := by
  rcases s.selectReg_cases b with ⟨h8, hp, h⟩ | ⟨hp, h⟩ <;> simp [h]
  · simp [h8, hp, eq_comm]
  · intro hf; have := hp hf; omega

/-- What the written-bit check can answer (R14). -/
theorem State.checkWritten_cases (i : RegIdx) :
    (s.config.regInit = .unwritten ∧ s.isWritten i = false ∧
        s.checkWritten i = .error ⟨.unwrittenRegister, some (BitVec.ofNat 8 i.val)⟩) ∨
      ((s.config.regInit = .unwritten → s.isWritten i = true) ∧ s.checkWritten i = .ok ()) := by
  unfold State.checkWritten
  cases s.config.regInit with
  | unwritten => cases s.isWritten i <;> simp
  | vector v => simp

theorem State.checkWritten_eq_ok {i : RegIdx} {u : Unit} :
    s.checkWritten i = .ok u ↔ (s.config.regInit = .unwritten → s.isWritten i = true) := by
  rcases s.checkWritten_cases i with ⟨hp, hw, h⟩ | ⟨hw, h⟩ <;> simp_all

theorem State.checkWritten_eq_error {i : RegIdx} {e : Trap} :
    s.checkWritten i = .error e ↔ s.config.regInit = .unwritten ∧ s.isWritten i = false ∧
      e = ⟨.unwrittenRegister, some (BitVec.ofNat 8 i.val)⟩ := by
  rcases s.checkWritten_cases i with ⟨hp, hw, h⟩ | ⟨hw, h⟩
  · simp [hp, hw, h, eq_comm]
  · constructor
    · simp [h]
    · rintro ⟨hp, hf, -⟩; simp [hw hp] at hf

/-- What the advance can answer (R103). -/
theorem State.nextPc_cases (len : Nat) :
    (s.config.addrOverflow = .fault ∧ 255 < s.pc.toNat + len ∧ s.nextPc len = .error ⟨.pcOutOfRange, none⟩) ∨
      ((s.config.addrOverflow = .fault → s.pc.toNat + len ≤ 255) ∧
        s.nextPc len = .ok (BitVec.ofNat 8 (s.pc.toNat + len))) := by
  unfold State.nextPc
  by_cases h : 255 < s.pc.toNat + len
  · cases s.config.addrOverflow <;> simp [h]
  · simp [h]; omega

theorem State.nextPc_eq_ok {len : Nat} {p : Byte} :
    s.nextPc len = .ok p ↔ (s.config.addrOverflow = .fault → s.pc.toNat + len ≤ 255) ∧
      BitVec.ofNat 8 (s.pc.toNat + len) = p := by
  rcases s.nextPc_cases len with ⟨hp, hl, h⟩ | ⟨hp, h⟩ <;> simp only [h, reduceCtorEq, Except.ok.injEq, false_iff, not_and]
  · intro h'; have := h' hp; omega
  · exact ⟨fun h => ⟨hp, h⟩, fun h => h.2⟩

theorem State.nextPc_eq_error {len : Nat} {e : Trap} :
    s.nextPc len = .error e ↔ s.config.addrOverflow = .fault ∧ 255 < s.pc.toNat + len ∧
      e = ⟨.pcOutOfRange, none⟩ := by
  rcases s.nextPc_cases len with ⟨hp, hl, h⟩ | ⟨hp, h⟩
  · simp [hp, hl, h, eq_comm]
  · simp only [h, reduceCtorEq, false_iff]; rintro ⟨hf, hl, -⟩; have := hp hf; omega

/-- A source operand succeeds (R101, R14). -/
theorem State.sourceReg_eq_ok {a : Byte} {r : RegIdx} :
    s.sourceReg a = .ok r ↔ s.selectReg a = .ok r ∧ s.checkWritten r = .ok () := by
  simp only [State.sourceReg, Except.bind_eq_ok', Except.pure_ok', Except.ok.injEq]
  constructor
  · rintro ⟨_, h1, ⟨⟩, h2, rfl⟩; exact ⟨h1, h2⟩
  · rintro ⟨h1, h2⟩; exact ⟨r, h1, (), h2, rfl⟩

/-- A source operand fails (R101, R14), in that order. -/
theorem State.sourceReg_eq_error {a : Byte} {e : Trap} :
    s.sourceReg a = .error e ↔ s.selectReg a = .error e ∨ ∃ r, s.selectReg a = .ok r ∧ s.checkWritten r = .error e := by
  simp [State.sourceReg, Except.bind_eq_error']

/-- The two source operands succeed. -/
theorem State.sourcePair_eq_ok {a b : Byte} {p : RegIdx × RegIdx} :
    s.sourcePair a b = .ok p ↔ s.selectReg a = .ok p.1 ∧ s.selectReg b = .ok p.2 ∧
      s.checkWritten p.1 = .ok () ∧ s.checkWritten p.2 = .ok () := by
  simp only [State.sourcePair, Except.bind_eq_ok', Except.pure_ok', Except.ok.injEq]
  constructor
  · rintro ⟨_, h1, _, h2, ⟨⟩, h3, ⟨⟩, h4, rfl⟩; exact ⟨h1, h2, h3, h4⟩
  · rintro ⟨h1, h2, h3, h4⟩; exact ⟨_, h1, _, h2, (), h3, (), h4, rfl⟩

/-- The two source operands fail, with the first failing check of R107. -/
theorem State.sourcePair_eq_error {a b : Byte} {e : Trap} :
    s.sourcePair a b = .error e ↔ s.selectReg a = .error e ∨
      ∃ ra, s.selectReg a = .ok ra ∧ (s.selectReg b = .error e ∨
        ∃ rb, s.selectReg b = .ok rb ∧ (s.checkWritten ra = .error e ∨
          (s.checkWritten ra = .ok () ∧ s.checkWritten rb = .error e))) := by
  simp [State.sourcePair, Except.bind_eq_error', Unique.exists_iff, PUnit.default_eq_unit]

/-- What the read of `FL` can answer (R27). -/
theorem State.checkFlags_cases :
    (s.config.flagsUnset = .fault ∧ s.fl = 0 ∧ s.checkFlags = .error ⟨.flagsUnset, none⟩) ∨
      ((s.config.flagsUnset = .fault → s.fl ≠ 0) ∧ s.checkFlags = .ok ()) := by
  unfold State.checkFlags
  cases s.config.flagsUnset with
  | zero => simp
  | fault =>
    by_cases h : s.fl = 0
    · exact .inl ⟨rfl, h, if_pos h⟩
    · exact .inr ⟨fun _ => h, if_neg h⟩

/-- The ALU op of ADD and MUL always gives a byte, so ALU_UNSUPPORTED stays out of reach (R186). -/
theorem alu8_add_ok (x y : Byte) : ∃ v, alu8 .add x y = .ok v := ⟨_, rfl⟩

theorem alu8_mul_ok (x y : Byte) : ∃ v, alu8 .mul x y = .ok v := ⟨_, rfl⟩

end Sys2Proof.Machine
end

