-- ==== Sys2Proof/Laws/Exec.lean ====
section
/-! SUPPORT. One inversion lemma per meaning and one for the step: if it answers a next state, the state is the fault of
one of the named checks, taken at `s`, or the named effect. -/

namespace Sys2Proof.Machine

variable {s t : State}

theorem execLdi_cases {a imm : Byte} (h : execLdi a imm s = .next t) :
    (∃ e, (s.selectReg a = .error e ∨ s.nextPc 3 = .error e) ∧ t = s.raise e) ∨
      ∃ ra p, s.selectReg a = .ok ra ∧ s.nextPc 3 = .ok p ∧ t = (s.writeReg ra imm).setPc p := by
  rcases (State.attempt_eq_next s).mp h with h | ⟨e, he, rfl⟩
  · simp only [Except.bind_eq_ok', Except.pure_ok', Except.ok.injEq] at h
    obtain ⟨ra, h1, p, h2, rfl⟩ := h
    exact .inr ⟨ra, p, h1, h2, rfl⟩
  · simp only [Except.bind_eq_error', Except.pure_ok', reduceCtorEq, and_false, exists_false, or_false] at he
    exact .inl ⟨e, he.imp id (fun ⟨_, _, h⟩ => h), rfl⟩

theorem execPrn_cases {a : Byte} (h : execPrn a s = .next t) :
    (∃ e, (s.sourceReg a = .error e ∨ s.nextPc 2 = .error e) ∧ t = s.raise e) ∨
      ∃ ra p, s.sourceReg a = .ok ra ∧ s.nextPc 2 = .ok p ∧ t = (s.emitOut (s.readReg ra)).setPc p := by
  rcases (State.attempt_eq_next s).mp h with h | ⟨e, he, rfl⟩
  · simp only [Except.bind_eq_ok', Except.pure_ok', Except.ok.injEq] at h
    obtain ⟨ra, h1, p, h2, rfl⟩ := h
    exact .inr ⟨ra, p, h1, h2, rfl⟩
  · simp only [Except.bind_eq_error', Except.pure_ok', reduceCtorEq, and_false, exists_false, or_false] at he
    exact .inl ⟨e, he.imp id (fun ⟨_, _, h⟩ => h), rfl⟩

theorem execPush_cases {a : Byte} (h : execPush a s = .next t) :
    (∃ e, (s.sourceReg a = .error e ∨ s.nextPc 2 = .error e) ∧ t = s.raise e) ∨
      ∃ ra p, s.sourceReg a = .ok ra ∧ s.nextPc 2 = .ok p ∧ t = (s.push (s.readReg ra)).setPc p := by
  rcases (State.attempt_eq_next s).mp h with h | ⟨e, he, rfl⟩
  · simp only [Except.bind_eq_ok', Except.pure_ok', Except.ok.injEq] at h
    obtain ⟨ra, h1, p, h2, rfl⟩ := h
    exact .inr ⟨ra, p, h1, h2, rfl⟩
  · simp only [Except.bind_eq_error', Except.pure_ok', reduceCtorEq, and_false, exists_false, or_false] at he
    exact .inl ⟨e, he.imp id (fun ⟨_, _, h⟩ => h), rfl⟩

theorem execPop_cases {a : Byte} (h : execPop a s = .next t) :
    (∃ e, (s.selectReg a = .error e ∨ s.nextPc 2 = .error e) ∧ t = s.raise e) ∨
      ∃ ra p, s.selectReg a = .ok ra ∧ s.nextPc 2 = .ok p ∧
        t = ((s.writeReg spIdx (s.sp + 1)).writeReg ra (s.memRead s.sp)).setPc p := by
  rcases (State.attempt_eq_next s).mp h with h | ⟨e, he, rfl⟩
  · simp only [Except.bind_eq_ok', Except.pure_ok', Except.ok.injEq] at h
    obtain ⟨ra, h1, p, h2, rfl⟩ := h
    exact .inr ⟨ra, p, h1, h2, rfl⟩
  · simp only [Except.bind_eq_error', Except.pure_ok', reduceCtorEq, and_false, exists_false, or_false] at he
    exact .inl ⟨e, he.imp id (fun ⟨_, _, h⟩ => h), rfl⟩

theorem execCall_cases {a : Byte} (h : execCall a s = .next t) :
    (∃ e, s.sourceReg a = .error e ∧ t = s.raise e) ∨
      ∃ ra, s.sourceReg a = .ok ra ∧
        t = (s.push s.returnAddress).setPc ((s.push s.returnAddress).readReg ra) := by
  rcases (State.attempt_eq_next s).mp h with h | ⟨e, he, rfl⟩
  · simp only [Except.bind_eq_ok', Except.pure_ok', Except.ok.injEq] at h
    obtain ⟨ra, h1, rfl⟩ := h
    exact .inr ⟨ra, h1, rfl⟩
  · simp only [Except.bind_eq_error', Except.pure_ok', reduceCtorEq, and_false, exists_false, or_false] at he
    exact .inl ⟨e, he, rfl⟩

theorem execRet_eq (s : State) : execRet s = .next ((s.writeReg spIdx (s.sp + 1)).setPc (s.memRead s.sp)) := rfl

theorem execHlt_eq (s : State) : execHlt s = .next (s.halt.setPc 0) := rfl

/-- The ALU step of ADD and MUL, whose op the ALU supports. -/
theorem State.aluStep_cases {op : AluOp} {f : Byte → Byte → Byte} (hop : ∀ x y, alu8 op x y = .ok (f x y)) {a b : Byte}
    (h : s.attempt (s.aluStep op a b) = .next t) :
    (∃ e, (s.sourcePair a b = .error e ∨ s.nextPc 3 = .error e) ∧ t = s.raise e) ∨
      ∃ ra rb p, s.sourcePair a b = .ok (ra, rb) ∧ s.nextPc 3 = .ok p ∧
        t = (s.writeReg ra (f (s.readReg ra) (s.readReg rb))).setPc p := by
  rcases (State.attempt_eq_next s).mp h with h | ⟨e, he, rfl⟩
  · simp only [State.aluStep, hop, Except.bind_eq_ok', Except.pure_ok', Except.ok.injEq] at h
    obtain ⟨⟨ra, rb⟩, h1, p, h2, _, rfl, rfl⟩ := h
    exact .inr ⟨ra, rb, p, h1, h2, rfl⟩
  · simp only [State.aluStep, hop, Except.bind_eq_error', Except.pure_ok', reduceCtorEq, and_false, exists_false,
      or_false] at he
    exact .inl ⟨e, he.imp id (fun ⟨_, _, h⟩ => h), rfl⟩

theorem execAdd_cases {a b : Byte} (h : execAdd a b s = .next t) :
    (∃ e, (s.sourcePair a b = .error e ∨ s.nextPc 3 = .error e) ∧ t = s.raise e) ∨
      ∃ ra rb p, s.sourcePair a b = .ok (ra, rb) ∧ s.nextPc 3 = .ok p ∧
        t = (s.writeReg ra (BitVec.ofNat 8 ((s.readReg ra).toNat + (s.readReg rb).toNat))).setPc p :=
  State.aluStep_cases (f := fun x y => BitVec.ofNat 8 (x.toNat + y.toNat)) (fun _ _ => rfl) h

theorem execMul_cases {a b : Byte} (h : execMul a b s = .next t) :
    (∃ e, (s.sourcePair a b = .error e ∨ s.nextPc 3 = .error e) ∧ t = s.raise e) ∨
      ∃ ra rb p, s.sourcePair a b = .ok (ra, rb) ∧ s.nextPc 3 = .ok p ∧
        t = (s.writeReg ra (BitVec.ofNat 8 ((s.readReg ra).toNat * (s.readReg rb).toNat))).setPc p :=
  State.aluStep_cases (f := fun x y => BitVec.ofNat 8 (x.toNat * y.toNat)) (fun _ _ => rfl) h

theorem execCmp_cases {a b : Byte} (h : execCmp a b s = .next t) :
    (∃ e, (s.sourcePair a b = .error e ∨ s.nextPc 3 = .error e) ∧ t = s.raise e) ∨
      ∃ ra rb p, s.sourcePair a b = .ok (ra, rb) ∧ s.nextPc 3 = .ok p ∧
        t = (s.compare (s.readReg ra) (s.readReg rb)).setPc p := by
  rcases (State.attempt_eq_next s).mp h with h | ⟨e, he, rfl⟩
  · simp only [Except.bind_eq_ok', Except.pure_ok', Except.ok.injEq] at h
    obtain ⟨⟨ra, rb⟩, h1, p, h2, rfl⟩ := h
    exact .inr ⟨ra, rb, p, h1, h2, rfl⟩
  · simp only [Except.bind_eq_error', Except.pure_ok', reduceCtorEq, and_false, exists_false, or_false] at he
    exact .inl ⟨e, he.imp id (fun ⟨_, _, h⟩ => h), rfl⟩

/-- What a conditional branch can answer: a fault, the taken branch, or the next instruction. -/
theorem State.branchStep_cases {taken : Bool} {a : Byte} (h : s.attempt (s.branchStep taken a) = .next t) :
    (∃ e, (s.selectReg a = .error e ∨ s.checkFlags = .error e ∨
        (taken = true ∧ s.sourceReg a = .error e) ∨ (taken = false ∧ s.nextPc 2 = .error e)) ∧ t = s.raise e) ∨
      (∃ ra, taken = true ∧ s.sourceReg a = .ok ra ∧ s.checkFlags = .ok () ∧ t = s.setPc (s.readReg ra)) ∨
      ∃ ra p, taken = false ∧ s.selectReg a = .ok ra ∧ s.checkFlags = .ok () ∧ s.nextPc 2 = .ok p ∧ t = s.setPc p := by
  rcases (State.attempt_eq_next s).mp h with h | ⟨e, he, rfl⟩
  · simp only [State.branchStep, State.branchPc, Except.bind_eq_ok', Except.pure_ok', Except.ok.injEq] at h
    obtain ⟨ra, h1, ⟨⟩, h2, q, h3, rfl⟩ := h
    cases taken
    · exact .inr (.inr ⟨ra, q, rfl, h1, h2, h3, rfl⟩)
    · simp only [if_true, Except.bind_eq_ok', Except.ok.injEq] at h3
      obtain ⟨⟨⟩, h3, rfl⟩ := h3
      exact .inr (.inl ⟨ra, rfl, (State.sourceReg_eq_ok s).mpr ⟨h1, h3⟩, h2, rfl⟩)
  · simp only [State.branchStep, State.branchPc, Except.bind_eq_error', Except.pure_ok', reduceCtorEq, and_false,
      exists_false, or_false] at he
    refine .inl ⟨e, ?_, rfl⟩
    rcases he with h | ⟨ra, h1, h | ⟨_, _, h⟩⟩
    · exact .inl h
    · exact .inr (.inl h)
    · cases taken
      · exact .inr (.inr (.inr ⟨rfl, h⟩))
      · simp only [if_true, Except.bind_eq_error', reduceCtorEq, and_false, exists_false, or_false] at h
        exact .inr (.inr (.inl ⟨rfl, (State.sourceReg_eq_error s).mpr (.inr ⟨ra, h1, h⟩)⟩))

theorem execJmp_cases {a : Byte} (h : execJmp a s = .next t) :
    (∃ e, s.sourceReg a = .error e ∧ t = s.raise e) ∨
      ∃ ra, s.sourceReg a = .ok ra ∧ t = s.setPc (s.readReg ra) := by
  rcases (State.attempt_eq_next s).mp h with h | ⟨e, he, rfl⟩
  · simp only [Except.bind_eq_ok', Except.pure_ok', Except.ok.injEq] at h
    obtain ⟨ra, h1, rfl⟩ := h
    exact .inr ⟨ra, h1, rfl⟩
  · simp only [Except.bind_eq_error', Except.pure_ok', reduceCtorEq, and_false, exists_false, or_false] at he
    exact .inl ⟨e, he, rfl⟩

/-- Every meaning answers a next state: a fault of the spec is one too (R183). -/
theorem exec_next (i : Instr) (s : State) : ∃ t, exec i s = .next t := by
  cases i
  case hlt => exact ⟨_, rfl⟩
  case ret => exact ⟨_, rfl⟩
  all_goals exact State.attempt_next s _

/-- Everything a step that answers a next state can be (R107): the fetch's fault, the unknown opcode's step, or the
decoded instruction. -/
theorem step_cases (h : step s = .next t) :
    s.status = .running ∧
      ((s.config.addrOverflow = .fault ∧ 254 ≤ s.pc.toNat ∧ t = s.raise ⟨.fetchOutOfRange, none⟩) ∨
        ((s.config.addrOverflow = .fault → s.pc.toNat < 254) ∧
          ((decode s.fetchWindow = .error (.unknownOpcode s.fetchWindow.op) ∧
              s.unknownOpcode s.fetchWindow.op = .next t) ∨
            ∃ i, decode s.fetchWindow = .ok i ∧ exec i s = .next t))) := by
  unfold step at h
  cases hs : s.status <;> rw [hs] at h
  case halted => cases h
  case fault => cases h
  refine ⟨rfl, ?_⟩
  rcases s.fetch_cases with ⟨hp, hl, hf⟩ | ⟨hp, hf⟩ <;> simp only [hf] at h
  · exact .inl ⟨hp, hl, (Host.Outcome.next.inj h).symm⟩
  · refine .inr ⟨hp, ?_⟩
    cases hd : decode s.fetchWindow with
    | error e =>
      cases decode_error_op hd
      rw [hd] at h
      exact .inl ⟨rfl, h⟩
    | ok i =>
      rw [hd] at h
      exact .inr ⟨i, rfl, h⟩

end Sys2Proof.Machine
end

