-- ==== Sys2Proof/Laws/Launch.lean ====
section
/-! SUPPORT. Reset, launch and the placing of one instruction: the fetch finds what was stored, and memory stays
canonical. -/

namespace Sys2Proof.Machine

/-- `State.reset` is the reset of R210 under `Config.atReset`. -/
theorem State.reset_eq_resetWith : State.reset = State.resetWith Config.atReset := by decide

theorem State.reset_mem_wf : Memory.wf State.reset.mem := by decide

theorem State.resetWith_mem_wf (c : Config) : Memory.wf (State.resetWith c).mem := Memory.ofCells_wf _

/-- Two addresses of one window are different cells. -/
theorem window_addresses_ne (p : Byte) : p + 1 ≠ p ∧ p + 2 ≠ p ∧ p + 2 ≠ p + 1 := by
  refine ⟨fun h => ?_, fun h => ?_, fun h => ?_⟩ <;>
    · have := congrArg BitVec.toNat h
      simp at this
      omega

/-- The window stored where the next step fetches is the window it reads. -/
theorem State.fetchWindow_storeWindow (s : State) (w : Window) : (s.storeWindow w).fetchWindow = w := by
  obtain ⟨h1, h2, h3⟩ := window_addresses_ne s.pc
  simp only [State.fetchWindow, State.storeWindow, State.memRead_memWrite, State.memWrite_pc, if_neg h1.symm,
    if_neg h2.symm, if_neg h3.symm, if_true]

theorem State.storeWindow_wf (s : State) (w : Window) (h : Memory.wf s.mem) : Memory.wf (s.storeWindow w).mem :=
  State.memWrite_wf _ _ _ (State.memWrite_wf _ _ _ (State.memWrite_wf _ _ _ h))

end Sys2Proof.Machine
end

