-- ==== Sys2Proof/Laws/PerInstr.lean ====
section
/-! SUPPORT. A family of statements made per instruction: the pattern that the 13 opcodes happen to fit (R78). -/

namespace Sys2Proof.Laws.OpcodePattern

/-- Whether the instruction is a control transfer (R78, R164). -/
def isTransfer : Instr → Bool
  | .ldi _ _ => false
  | .hlt => false
  | .prn _ => false
  | .mul _ _ => false
  | .push _ => false
  | .pop _ => false
  | .call _ => true
  | .ret => true
  | .add _ _ => false
  | .cmp _ _ => false
  | .jeq _ => true
  | .jmp _ => true
  | .jne _ => true

/-- Whether the instruction is ADD, MUL or CMP (R78). -/
def isF2R (i : Instr) : Bool :=
  match i.format with
  | .F0 => false
  | .F1 => false
  | .F2R => true
  | .F2I => false

/-- Bits 7..6 of the opcode are the operand count, bit 4 marks the control transfers and bit 5 marks ADD, MUL and CMP;
the encoding has one byte more than the operand count (R70, R78). -/
def Statement (i : Instr) : Prop :=
  (i.opcode.extractLsb 7 6).toNat = i.format.operandCount ∧ i.opcode.getLsbD 4 = isTransfer i ∧
    i.opcode.getLsbD 5 = isF2R i ∧ (encode i).length = 1 + i.format.operandCount

theorem ldi (a imm : Byte) : Statement (.ldi a imm) := by simp [Statement, Instr.opcode, Instr.operandBytes, encode, isTransfer, isF2R, Instr.format, Format.operandCount]
theorem hlt : Statement .hlt := by simp [Statement, Instr.opcode, Instr.operandBytes, encode, isTransfer, isF2R, Instr.format, Format.operandCount]
theorem prn (a : Byte) : Statement (.prn a) := by simp [Statement, Instr.opcode, Instr.operandBytes, encode, isTransfer, isF2R, Instr.format, Format.operandCount]
theorem mul (a b : Byte) : Statement (.mul a b) := by simp [Statement, Instr.opcode, Instr.operandBytes, encode, isTransfer, isF2R, Instr.format, Format.operandCount]
theorem push (a : Byte) : Statement (.push a) := by simp [Statement, Instr.opcode, Instr.operandBytes, encode, isTransfer, isF2R, Instr.format, Format.operandCount]
theorem pop (a : Byte) : Statement (.pop a) := by simp [Statement, Instr.opcode, Instr.operandBytes, encode, isTransfer, isF2R, Instr.format, Format.operandCount]
theorem call (a : Byte) : Statement (.call a) := by simp [Statement, Instr.opcode, Instr.operandBytes, encode, isTransfer, isF2R, Instr.format, Format.operandCount]
theorem ret : Statement .ret := by simp [Statement, Instr.opcode, Instr.operandBytes, encode, isTransfer, isF2R, Instr.format, Format.operandCount]
theorem add (a b : Byte) : Statement (.add a b) := by simp [Statement, Instr.opcode, Instr.operandBytes, encode, isTransfer, isF2R, Instr.format, Format.operandCount]
theorem cmp (a b : Byte) : Statement (.cmp a b) := by simp [Statement, Instr.opcode, Instr.operandBytes, encode, isTransfer, isF2R, Instr.format, Format.operandCount]
theorem jeq (a : Byte) : Statement (.jeq a) := by simp [Statement, Instr.opcode, Instr.operandBytes, encode, isTransfer, isF2R, Instr.format, Format.operandCount]
theorem jmp (a : Byte) : Statement (.jmp a) := by simp [Statement, Instr.opcode, Instr.operandBytes, encode, isTransfer, isF2R, Instr.format, Format.operandCount]
theorem jne (a : Byte) : Statement (.jne a) := by simp [Statement, Instr.opcode, Instr.operandBytes, encode, isTransfer, isF2R, Instr.format, Format.operandCount]

end Sys2Proof.Laws.OpcodePattern
end

