-- ==== Sys2Proof/Tests/Slice0.lean ====
section
/-! SUPPORT. The model's own tests. Expected results are the vectors of spec/95_test_vectors.md (their ids stand beside
each test) or are worked by hand from the rule named; and, for every statement with hypotheses, a witness that meets
them. -/

namespace Sys2Proof.Tests

open Sys2Proof Sys2Proof.Machine

/-! ## Helpers -/

/-- A running state with these bytes from `pc` on and these registers, under the parameters of `State.reset`. -/
def stateAt (pc : Byte) (regs : Vector Byte 8) (bytes : List Byte) : State :=
  { State.reset with pc := pc, regs := regs, mem := Memory.writeBytes [] pc.toNat bytes }

/-- Registers R0 to R3 as given, R4 to R6 zero, SP 0xF4. -/
def r4 (a b c d : Byte) : Vector Byte 8 := #v[a, b, c, d, 0, 0, 0, 0xF4]

/-- The state under the spec's default `REG_INIT = unwritten`, with only R0 and SP written. -/
def unwritten (s : State) : State :=
  { s with config := Config.specDefault, written := #v[true, false, false, false, false, false, false, true] }

/-- The state under `ADDR_OVERFLOW_POLICY = wrap`. -/
def wrapping (s : State) : State := { s with config := { s.config with addrOverflow := .wrap } }

/-- The state under `REG_INDEX_POLICY = low3`. -/
def low3d (s : State) : State := { s with config := { s.config with regIndex := .low3 } }

/-- The state under `UNKNOWN_OPCODE_POLICY = stall`. -/
def stalling (s : State) : State := { s with config := { s.config with unknownOpcode := .stall } }

/-- The state under `FLAGS_UNSET_POLICY = fault`. -/
def unsetFaults (s : State) : State := { s with config := { s.config with flagsUnset := .fault } }

/-- One field of the next state, or none where there is no next state. -/
def seen {α : Type} (f : State → α) (r : Result) : Option α :=
  match r with
  | .next t => some (f t)
  | .fault _ => none
  | .refused _ => none

/-- The fault that a step left, as the host reads it. -/
def faultSeen (r : Result) : Option (Option FaultReport) := seen State.faultReport r

/-! ## WellFormed: the one check, and a term it refuses -/

theorem test_wf_accepts_r7 : (Instr.add 7 0).WellFormed := by decide
theorem test_wf_accepts_any_immediate : (Instr.ldi 0 0xFF).WellFormed := by decide
theorem test_wf_refuses_register_8 : ¬ (Instr.ldi 8 0).WellFormed := by decide
theorem test_wf_refuses_second_register : ¬ (Instr.cmp 0 0xFF).WellFormed := by decide

/-! ## Decoding: each constructor's word, written out from R71 to R76 -/

theorem test_decode_ldi : decode ⟨0b10000010, 0b00000011, 0b11111111⟩ = .ok (.ldi 3 255) := by rfl
theorem test_decode_hlt : decode ⟨0b00000001, 0b10101010, 0b01010101⟩ = .ok .hlt := by rfl
theorem test_decode_prn : decode ⟨0b01000111, 0b00000100, 0b11111111⟩ = .ok (.prn 4) := by rfl
theorem test_decode_mul : decode ⟨0b10100010, 0b00000001, 0b00000010⟩ = .ok (.mul 1 2) := by rfl
theorem test_decode_push : decode ⟨0b01000101, 0b00000101, 0b00000000⟩ = .ok (.push 5) := by rfl
theorem test_decode_pop : decode ⟨0b01000110, 0b00000110, 0b00000000⟩ = .ok (.pop 6) := by rfl
theorem test_decode_call : decode ⟨0b01010000, 0b00000111, 0b00000000⟩ = .ok (.call 7) := by rfl
theorem test_decode_ret : decode ⟨0b00010001, 0b00000001, 0b00000001⟩ = .ok .ret := by rfl
theorem test_decode_add : decode ⟨0b10100000, 0b00000001, 0b00000010⟩ = .ok (.add 1 2) := by rfl
theorem test_decode_cmp : decode ⟨0b10100111, 0b00000010, 0b00000001⟩ = .ok (.cmp 2 1) := by rfl
theorem test_decode_jeq : decode ⟨0b01010101, 0b00001001, 0b00000000⟩ = .ok (.jeq 9) := by rfl
theorem test_decode_jmp : decode ⟨0b01010100, 0b00000011, 0b00000000⟩ = .ok (.jmp 3) := by rfl
theorem test_decode_jne : decode ⟨0b01010110, 0b00000010, 0b00000000⟩ = .ok (.jne 2) := by rfl

/-- E-4: 0x83 is not LDI. -/
theorem test_decode_no_bit_fields : decode ⟨0x83, 0, 0⟩ = .error (.unknownOpcode 0x83) := by rfl

/-- The opcode table numbers bits from the first byte up: LDI R3,0xFF is 0xFF0382. -/
theorem test_table_word : decodeTableWord 24 0xFF0382 = some (.ldi 3 0xFF) := by decide

/-- Bits from `nbits` up are zero. -/
theorem test_table_word_short : decodeTableWord 8 0xFF0382 = some (.ldi 0 0) := by decide

/-- A word placed with `withFetchWord` is the instruction the next step runs, here from reset. -/
theorem test_with_fetch_word :
    seen (fun t => (t.readReg 3, t.pc)) (step (State.reset.withFetchWord 24 0xFF0382)) = some (0xFF, 3) := by decide

/-! ## One step per test, at most two per instruction -/

/-- L-3: LDI R7 moves the stack. -/
theorem test_ldi_sp : seen (fun t => (t.sp, t.pc)) (step (stateAt 0x20 (r4 0 0 0 0) [0x82, 0x07, 0x80])) =
    some (0x80, 0x23) := by decide
/-- L-4: a 3-byte instruction at 253. -/
theorem test_ldi_at_253 : faultSeen (step (stateAt 253 (r4 0 0 0 0) [0x82, 0x00, 0x01])) =
    some (some ⟨.pcOutOfRange, 253, none⟩) := by decide
/-- P-3: PRN R7 outputs 244 after launch. -/
theorem test_prn_sp : seen (fun t => (t.out, t.pc)) (step (stateAt 0 (r4 0 0 0 0) [0x47, 0x07])) =
    some ([244], 2) := by decide
/-- P-4: PRN of an unwritten register. -/
theorem test_prn_unwritten : faultSeen (step (unwritten (stateAt 6 (r4 0 0 0 0) [0x47, 0x04]))) =
    some (some ⟨.unwrittenRegister, 6, some 4⟩) := by decide
/-- H-1. -/
theorem test_hlt : seen (fun t => (t.status, t.pc, t.regs)) (step (stateAt 5 (r4 9 8 7 6) [0x01])) =
    some (.halted, 0, r4 9 8 7 6) := by decide
/-- H-2: HLT at 254 faults before it is decoded. -/
theorem test_hlt_at_254 : faultSeen (step (stateAt 254 (r4 0 0 0 0) [0x01])) =
    some (some ⟨.fetchOutOfRange, 254, none⟩) := by decide
/-- A-2: 200 + 100 is 44 modulo 256. -/
theorem test_add_wraps : seen (fun t => (t.readReg 0, t.readReg 1, t.fl)) (step (stateAt 0 (r4 200 100 0 0) [0xA0, 0, 1])) =
    some (44, 100, 0) := by decide
/-- A-5: a register added to itself. -/
theorem test_add_self : seen (fun t => t.readReg 3) (step (stateAt 0 (r4 0 0 0 0x90) [0xA0, 3, 3])) = some 0x20 := by
  decide
/-- M-3: 255 * 255 is 1 modulo 256. -/
theorem test_mul_wraps : seen (fun t => (t.readReg 0, t.pc)) (step (stateAt 0 (r4 0xFF 0xFF 0 0) [0xA2, 0, 1])) =
    some (1, 3) := by decide
/-- M-4: a register times itself. -/
theorem test_mul_self : seen (fun t => t.readReg 0) (step (stateAt 0 (r4 9 0 0 0) [0xA2, 0, 0])) = some 81 := by decide
/-- S-2: PUSH R7 stores the SP of before. -/
theorem test_push_sp : seen (fun t => (t.sp, t.memRead 0xF3, t.pc)) (step (stateAt 0 (r4 0 0 0 0) [0x45, 7])) =
    some (0xF3, 0xF4, 2) := by decide
/-- S-3: a push at SP = 0 wraps to 255. -/
theorem test_push_wraps : seen (fun t => (t.sp, t.memRead 0xFF)) (step (stateAt 0 #v[0, 7, 0, 0, 0, 0, 0, 0] [0x45, 1])) =
    some (0xFF, 7) := by decide
/-- S-5: POP R7 overwrites the increment; here SP points at the byte 0x46 of the POP itself. -/
theorem test_pop_sp : seen (fun t => (t.sp, t.pc)) (step (stateAt 0x30 #v[0, 0, 0, 0, 0, 0, 0, 0x30] [0x46, 7])) =
    some (0x46, 0x32) := by decide
/-- S-6: a pop at SP = 255 leaves SP = 0. -/
theorem test_pop_wraps : seen (fun t => (t.readReg 2, t.sp))
    (step { stateAt 0 #v[0, 0, 0, 0, 0, 0, 0, 0xFF] [0x46, 2] with mem := [(0, 0x46), (1, 2), (0xFF, 3)] }) =
    some (3, 0) := by decide
/-- C-1. -/
theorem test_call : seen (fun t => (t.memRead 0xF3, t.sp, t.pc)) (step (stateAt 0x10 (r4 0 0x40 0 0) [0x50, 1])) =
    some (0x12, 0xF3, 0x40) := by decide
/-- C-2: CALL R7 goes to the new SP. -/
theorem test_call_sp : seen (fun t => (t.memRead 0xF3, t.sp, t.pc)) (step (stateAt 0x10 (r4 0 0 0 0) [0x50, 7])) =
    some (0x12, 0xF3, 0xF3) := by decide
/-- R-1, with the byte 0x11 of the RET itself as the return address. -/
theorem test_ret : seen (fun t => (t.pc, t.sp)) (step (stateAt 0x20 #v[0, 0, 0, 0, 0, 0, 0, 0x20] [0x11])) =
    some (0x11, 0x21) := by decide
/-- R-3. -/
theorem test_ret_at_255 : faultSeen (step (stateAt 255 (r4 0 0 0 0) [0x11])) =
    some (some ⟨.fetchOutOfRange, 255, none⟩) := by decide
/-- K-4: the comparison is unsigned. -/
theorem test_cmp_unsigned : seen (fun t => (t.fl, t.pc)) (step (stateAt 0 (r4 0xFF 1 0 0) [0xA7, 0, 1])) =
    some (2, 3) := by decide
/-- K-5: the previous flag is discarded. -/
theorem test_cmp_discards : seen (fun t => t.fl) (step { stateAt 0 (r4 0x80 0 0 0) [0xA7, 0, 0] with fl := 4 }) =
    some 1 := by decide
/-- J-1. -/
theorem test_jeq_taken : seen (fun t => t.pc) (step { stateAt 0x10 (r4 0 0 0x40 0) [0x55, 2] with fl := 1 }) =
    some 0x40 := by decide
/-- J-5: not taken, so the unwritten register is not read. -/
theorem test_jeq_not_taken : seen (fun t => (t.pc, t.status))
    (step { unwritten (stateAt 0x10 (r4 0 0 0 0) [0x55, 2]) with fl := 2 }) = some (0x12, .running) := by decide
/-- G-2. -/
theorem test_jmp : seen (fun t => t.pc) (step (stateAt 0 (r4 0 0 0 0xFE) [0x54, 3])) = some 0xFE := by decide
/-- G-3: JMP R7. -/
theorem test_jmp_sp : seen (fun t => t.pc) (step (stateAt 0 (r4 0 0 0 0) [0x54, 7])) = some 0xF4 := by decide
/-- N-2. -/
theorem test_jne_taken : seen (fun t => t.pc) (step { stateAt 0x10 (r4 0 0 0x40 0) [0x56, 2] with fl := 4 }) =
    some 0x40 := by decide
/-- N-4: at FL = 0 the branch is not taken; the condition is not "E clear". -/
theorem test_jne_before_cmp : seen (fun t => t.pc) (step (stateAt 0x10 (r4 0 0 0x40 0) [0x56, 2])) = some 0x12 := by decide

/-! ## The engine and the policies -/

/-- E-1. -/
theorem test_unknown_opcode : faultSeen (step State.reset) = some (some ⟨.unknownOpcode, 0, some 0⟩) := by decide
/-- E-2. -/
theorem test_stall : seen (fun t => (t.diag, t.pc, t.status)) (step (stalling State.reset)) =
    some ([⟨0, 0⟩], 0, .running) := by decide
/-- A-9: operand a is checked before b. -/
theorem test_unwritten_order : faultSeen (step (unwritten (stateAt 0 (r4 0 0 0 0) [0xA0, 2, 1]))) =
    some (some ⟨.unwrittenRegister, 0, some 2⟩) := by decide
/-- A-10 and R182: a bad index comes before an unwritten register. -/
theorem test_bad_register_first : faultSeen (step (unwritten (stateAt 0 (r4 0 0 0 0) [0xA0, 1, 9]))) =
    some (some ⟨.badRegister, 0, some 9⟩) := by decide
/-- J-8: checked even when the branch is not taken. -/
theorem test_bad_register_not_taken : faultSeen (step { stateAt 0x10 (r4 0 0 0 0) [0x55, 9] with fl := 2 }) =
    some (some ⟨.badRegister, 0x10, some 9⟩) := by decide
/-- J-4. -/
theorem test_flags_unset : faultSeen (step (unsetFaults (stateAt 0x10 (r4 0 0 0 0) [0x55, 2]))) =
    some (some ⟨.flagsUnset, 0x10, none⟩) := by decide
/-- L-7. -/
theorem test_low3 : seen (fun t => (t.readReg 2, t.pc)) (step (low3d (stateAt 0 (r4 0 0 0 0) [0x82, 0x0A, 5]))) =
    some (5, 3) := by decide
/-- L-5: under `wrap`, LDI at 253 leaves pc = 0. -/
theorem test_wrap_advance : seen (fun t => (t.readReg 0, t.pc)) (step (wrapping (stateAt 253 (r4 0 0 0 0) [0x82, 0, 1]))) =
    some (1, 0) := by decide
/-- R97 under `wrap`: the window at 255 goes on at 0. -/
theorem test_wrap_window : seen (fun t => (t.readReg 2, t.pc))
    (step (wrapping { stateAt 255 (r4 0 0 0 0) [] with mem := [(0, 2), (1, 9), (255, 0x82)] })) = some (9, 2) := by decide
/-- E-6: no step from HALTED; and none from FAULT (R105). -/
theorem test_no_step_from_halted : seen State.pc (step { State.reset with status := .halted }) = none := by decide
theorem test_no_step_from_fault : seen State.pc (step { State.reset with status := .fault }) = none := by decide
/-- 95 P1: the launch of a program, and its first step. -/
theorem test_launch : seen (fun t => (t.memRead 0, t.memRead 5, t.sp, t.isWritten 0))
    (launch Config.specDefault [0x82, 0x00, 0x08, 0x47, 0x00, 0x01]) = some (0x82, 0x01, 0xF4, false) := by decide
theorem test_reset_status : State.reset.status = .running ∧ State.reset.pc = 0 ∧ State.reset.sp = 0xF4 := by decide

/-! ## Witnesses: a state and operands that meet the hypotheses of each statement, a clause at a time -/

/-- A running state at 252 with LDI R0,1. -/
def w252 : State := stateAt 252 (r4 3 5 0x40 7) [0x82, 0, 1]
/-- A running state at 0x10 with PUSH R0. -/
def wPush : State := stateAt 0x10 (r4 0x42 0 0 0) [0x45, 0]

theorem witness_DecodedWindowBeginsWithEncoding : decode ⟨0x47, 9, 0⟩ = .ok (.prn 9) := by rfl
theorem witness_DecodeTableHasExactly13Entries : (⟨0x02, 0, 0⟩ : Window).op ∉ knownOpcodes := by decide
theorem witness_StepRunsTheDecodedInstruction :
    (stateAt 253 (r4 0 0 0 0) [0x82, 0, 1]).status = .running ∧ FetchFits (stateAt 253 (r4 0 0 0 0) [0x82, 0, 1]) ∧
      decode (windowAt (stateAt 253 (r4 0 0 0 0) [0x82, 0, 1])) = .ok (.ldi 0 1) := ⟨rfl, by decide, rfl⟩
theorem witness_FetchRangeCheck_fault : (stateAt 254 (r4 0 0 0 0) []).status = .running ∧
    (stateAt 254 (r4 0 0 0 0) []).config.addrOverflow = .fault ∧ 254 ≤ (stateAt 254 (r4 0 0 0 0) []).pc.toNat := by decide
theorem witness_FetchRangeCheck_wrap : (wrapping (stateAt 254 (r4 0 0 0 0) [])).status = .running ∧
    (wrapping (stateAt 254 (r4 0 0 0 0) [])).config.addrOverflow = .wrap := by decide
theorem witness_UnknownOpcode_fault : State.reset.status = .running ∧ FetchFits State.reset ∧
    State.reset.memRead State.reset.pc ∉ knownOpcodes ∧ State.reset.config.unknownOpcode = .fault := by decide
theorem witness_UnknownOpcode_stall : (stalling State.reset).status = .running ∧ FetchFits (stalling State.reset) ∧
    (stalling State.reset).memRead (stalling State.reset).pc ∉ knownOpcodes ∧
    (stalling State.reset).config.unknownOpcode = .stall := by decide
/-- FaultsArePreciseAndTerminal, FaultCausesAreThoseOfTheTable (its clause for no instruction). -/
theorem witness_FaultingStep_unknown : ∃ t, step State.reset = .next t ∧ t.status = .fault ∧
    decode (windowAt State.reset) = .error (.unknownOpcode 0) := ⟨_, rfl, rfl, rfl⟩
/-- FaultsArePreciseAndTerminal, FaultCausesAreThoseOfTheTable (its clause for an instruction), and the last clause of
NonRedirectingInstructionsAdvance, at 253. -/
theorem witness_FaultingStep_advance : ∃ t, step (stateAt 253 (r4 0 0 0 0) [0x82, 0, 1]) = .next t ∧ t.status = .fault ∧
    t.faultCause = .pcOutOfRange ∧ decode (windowAt (stateAt 253 (r4 0 0 0 0) [0x82, 0, 1])) = .ok (.ldi 0 1) :=
  ⟨_, rfl, rfl, rfl, rfl⟩
theorem witness_StepIsFaultFreeWhenTheChecksPass : w252.status = .running ∧ FetchFits w252 ∧
    decode (windowAt w252) = .ok (.ldi 0 1) ∧ IndexChecksPass (.ldi 0 1) w252 ∧ FlagsCheckPasses (.ldi 0 1) w252 ∧
    SourceChecksPass (.ldi 0 1) w252 ∧ ((Instr.ldi 0 1).advances w252.fl = true → AdvanceFits w252 3) :=
  ⟨rfl, by decide, rfl, by decide, by decide, by decide, by decide⟩
theorem witness_RegisterIndexCheck_fault : w252.config.regIndex = .fault ∧
    (Instr.add 7 8).regOperands.find? (fun b => decide (8 ≤ b.toNat)) = some 8 := by decide
theorem witness_RegisterIndexCheck_low3 : (low3d w252).config.regIndex = .low3 := by decide
theorem witness_UnwrittenSourceFaults : (unwritten w252).config.regInit = .unwritten ∧
    IndexChecksPass (.add 0 1) (unwritten w252) ∧ FlagsCheckPasses (.add 0 1) (unwritten w252) ∧
    ((Instr.add 0 1).sourceOperands (unwritten w252).fl).find? (fun b => !(unwritten w252).isWritten (operandReg b)) =
      some 1 := by decide
theorem witness_NonRedirecting_advances : (Instr.jeq 0).advances w252.fl = true ∧ IndexChecksPass (.jeq 0) w252 ∧
    FlagsCheckPasses (.jeq 0) w252 ∧ SourceChecksPass (.jeq 0) w252 ∧ AdvanceFits w252 (Instr.jeq 0).length := by decide
theorem witness_NonRedirecting_faults : (Instr.mul 0 1).advances (stateAt 253 (r4 0 0 0 0) []).fl = true ∧
    IndexChecksPass (.mul 0 1) (stateAt 253 (r4 0 0 0 0) []) ∧ FlagsCheckPasses (.mul 0 1) (stateAt 253 (r4 0 0 0 0) []) ∧
    SourceChecksPass (.mul 0 1) (stateAt 253 (r4 0 0 0 0) []) ∧
    ¬ AdvanceFits (stateAt 253 (r4 0 0 0 0) []) (Instr.mul 0 1).length := by decide

/-- LdiLoadsTheImmediate, at the last address that fits. -/
theorem witness_LdiLoadsTheImmediate : Selects w252.config 7 7 ∧ AdvanceFits w252 3 := by decide
/-- LdiLoadsTheImmediate, by an operand of 8 or more under `low3`. -/
theorem witness_Selects_low3 : Selects (low3d w252).config 0x0F 7 ∧ AdvanceFits (low3d w252) 3 := by decide
/-- PrnEmitsTheRegister, PushStoresTheRegister, PopLoadsTheRegister (R0 and R7), CallPushesTheReturnAddressAndJumps (R0
and R7), JmpGoesToTheRegister. -/
theorem witness_OneRegister : Selects wPush.config 0 0 ∧ Readable wPush 0 ∧ Selects wPush.config 7 spIdx ∧
    Readable wPush spIdx ∧ AdvanceFits wPush 2 := by decide
/-- The same under the spec's default `unwritten`, for the register that is written. -/
theorem witness_OneRegister_unwritten : Selects (unwritten wPush).config 0 0 ∧ Readable (unwritten wPush) 0 ∧
    ¬ Readable (unwritten wPush) 1 := by decide
/-- AddStoresTheSumModulo256, MulStoresTheProductModulo256, CmpSetsTheThreeWayFlag (LESS_THAN: 3 and 5). -/
theorem witness_TwoRegisters_less : Selects w252.config 0 0 ∧ Selects w252.config 1 1 ∧ Readable w252 0 ∧
    Readable w252 1 ∧ AdvanceFits w252 3 ∧ (w252.readReg 0).toNat < (w252.readReg 1).toNat := by decide
/-- CmpSetsTheThreeWayFlag, EQUAL: a register with itself. -/
theorem witness_TwoRegisters_equal : Selects w252.config 1 1 ∧ Readable w252 1 ∧ AdvanceFits w252 3 ∧
    (w252.readReg 1).toNat = (w252.readReg 1).toNat := by decide
/-- CmpSetsTheThreeWayFlag, GREATER_THAN: 5 and 3. -/
theorem witness_TwoRegisters_greater : Selects w252.config 1 1 ∧ Selects w252.config 0 0 ∧ Readable w252 1 ∧
    Readable w252 0 ∧ AdvanceFits w252 3 ∧ (w252.readReg 0).toNat < (w252.readReg 1).toNat := by decide
/-- JeqCompletes, JneCompletes and ConditionalBranchMatrix: one witness per value of `FL`. -/
theorem witness_Branch : Selects w252.config 2 2 ∧ Readable w252 2 ∧ AdvanceFits w252 2 ∧ w252.fl = 0 ∧
    w252.config.flagsUnset = .zero ∧ { w252 with fl := 1 }.fl = 1 ∧ { w252 with fl := 2 }.fl = 2 ∧
    { w252 with fl := 4 }.fl = 4 ∧ (unsetFaults w252).fl = 0 ∧ (unsetFaults w252).config.flagsUnset = .fault := by decide
/-- JeqCompletes and JneCompletes at FL = 2 through an unwritten register that only JNE would read. -/
theorem witness_Branch_unread :
    Selects (unwritten { w252 with fl := 2 }).config 2 2 ∧ ¬ Readable (unwritten { w252 with fl := 2 }) 2 ∧
    ((unwritten { w252 with fl := 2 }).fl = 1 → Readable (unwritten { w252 with fl := 2 }) 2) ∧
    ((unwritten { w252 with fl := 2 }).fl ≠ 1 → AdvanceFits (unwritten { w252 with fl := 2 }) 2) := by decide

/-- ConditionalBranchMatrix, its last row, where the register is not written and the advance does not fit. -/
theorem witness_Branch_unset : let s := unsetFaults (unwritten (stateAt 0xFF (r4 0 0 0 0) []))
    Selects s.config 2 2 ∧ ¬ Readable s 2 ∧ ¬ AdvanceFits s 2 ∧ s.fl = 0 ∧ s.config.flagsUnset = .fault := by decide

theorem witness_FrameOfLdiAddMul : ∃ t, exec (.ldi 7 1) w252 = .next t ∧ ¬ Selects w252.config 7 0 :=
  ⟨_, rfl, by decide⟩
theorem witness_FrameOfInstructionsWithoutRegisterResult :
    (∃ t, exec .hlt w252 = .next t) ∧ ∃ t, exec (.cmp 0 1) w252 = .next t := ⟨⟨_, rfl⟩, ⟨_, rfl⟩⟩
theorem witness_FrameOfPushAndCall : (∃ t, exec (.push 7) wPush = .next t) ∧ ∃ t, exec (.call 9) wPush = .next t :=
  ⟨⟨_, rfl⟩, ⟨_, rfl⟩⟩
theorem witness_FrameOfPopAndRet : (∃ t, exec (.pop 0) wPush = .next t) ∧ ∃ t, exec .ret wPush = .next t :=
  ⟨⟨_, rfl⟩, ⟨_, rfl⟩⟩
/-- FlagsAreWrittenByCmpAndReadByBranchesOnly, both clauses. -/
theorem witness_FlagsWritten : (∃ t, step (stateAt 0 (r4 5 3 0 0) [0xA7, 0, 1]) = .next t ∧ t.fl ≠ 0) ∧
    (Instr.add 0 1).readsFlags = false ∧ ∃ t, exec (.add 0 1) w252 = .next t := ⟨⟨_, rfl, by decide⟩, rfl, _, rfl⟩
/-- MemoryIsWrittenByPushAndCallOnly and StackWriteIsFetched's first hypotheses. -/
theorem witness_MemoryIsWritten : ∃ t, step wPush = .next t ∧ t.memRead 0xF3 ≠ wPush.memRead 0xF3 :=
  ⟨_, rfl, by decide⟩
theorem witness_OnlyHltHaltsAndItClearsNothing : ∃ t, step (stateAt 253 (r4 1 0 0 0) [0x01]) = .next t ∧
    t.status = .halted := ⟨_, rfl, rfl⟩
/-- StreamsAppendOnlyAndAreNeverRead: a launch, a PRN that completes and the unread streams. -/
theorem witness_Streams_out : (∃ s, launch Config.specDefault [] = .next s) ∧
    ∃ t, step (stateAt 0 (r4 8 0 0 0) [0x47, 0]) = .next t ∧
      decode (windowAt (stateAt 0 (r4 8 0 0 0) [0x47, 0])) = .ok (.prn 0) ∧ t.status ≠ .fault :=
  ⟨⟨_, rfl⟩, _, rfl, rfl, by decide⟩
/-- StreamsAppendOnlyAndAreNeverRead: a stalling step, and a step that appends nothing. -/
theorem witness_Streams_diag : (∃ t, step (stalling State.reset) = .next t ∧ t.status ≠ .fault) ∧
    (stalling State.reset).memRead 0 ∉ knownOpcodes ∧ ∃ t, step wPush = .next t ∧ wPush.memRead wPush.pc ∈ knownOpcodes :=
  ⟨⟨_, rfl, by decide⟩, by decide, _, rfl, by decide⟩
/-- NoStepChangesTheParameters and WrittenBitsAreSetAndNeverCleared: a step that writes an unwritten register. -/
theorem witness_WrittenBits : ∃ t, step (unwritten (stateAt 0 (r4 0 0 0 0) [0x82, 1, 5])) = .next t ∧
    t.readReg 1 ≠ (unwritten (stateAt 0 (r4 0 0 0 0) [0x82, 1, 5])).readReg 1 := ⟨_, rfl, by decide⟩
/-- StepKeepsTheInvariant: a state that meets it and steps. -/
theorem witness_StepKeepsTheInvariant : State.reset.Inv ∧ ∃ t, step State.reset = .next t :=
  ⟨⟨by decide, by decide, by decide, by decide, by decide, by decide, fun h => (by cases h), by decide⟩, _, rfl⟩
theorem witness_LaunchMeetsTheInvariant : ∃ s, launch Config.specDefault [0x01] = .next s := ⟨_, rfl⟩
theorem witness_PushPrimitive_wraps : (State.reset.writeReg spIdx 0).sp = 0 := by decide
theorem witness_PopPrimitive_wraps : (State.reset.writeReg spIdx 255).sp = 255 := by decide
/-- FlagsRegisterCompareAndConditions, its three orders. -/
theorem witness_CompareOrders : (5 : Byte).toNat = (5 : Byte).toNat ∧ (1 : Byte).toNat < (0xFF : Byte).toNat := by decide
theorem witness_StackIsLastInFirstOut : (List.replicate 256 (7 : Byte)).length ≤ 256 := by
  rw [List.length_replicate]
/-- CallThenRetResumesAfterTheCall, with the RET right after the CALL. -/
theorem witness_CallThenRet : Selects wPush.config 0 0 ∧ Readable wPush 0 ∧ ∃ t u : State,
    exec (.call 0) wPush = .next t ∧ u.sp = t.sp ∧ u.memRead t.sp = t.memRead t.sp :=
  ⟨by decide, by decide, _, _, rfl, rfl, rfl⟩
theorem witness_AddAndMulAccumulateAndCommute : Selects wPush.config 0 0 ∧ Selects wPush.config 1 1 ∧
    (0 : RegIdx) ≠ 1 ∧ Readable wPush 0 ∧ Readable wPush 1 ∧ AdvanceFits wPush 6 := by decide
theorem witness_MoveIdiom : Selects wPush.config 0 0 ∧ Selects wPush.config 1 1 ∧ (0 : RegIdx) ≠ spIdx ∧
    (1 : RegIdx) ≠ spIdx ∧ Readable wPush 1 ∧ AdvanceFits wPush 4 := by decide
theorem witness_DecrementIdiom : Selects (stateAt 0 (r4 10 0xFF 0 0) []).config 0 0 ∧
    Selects (stateAt 0 (r4 10 0xFF 0 0) []).config 1 1 ∧ Readable (stateAt 0 (r4 10 0xFF 0 0) []) 0 ∧
    Readable (stateAt 0 (r4 10 0xFF 0 0) []) 1 ∧ AdvanceFits (stateAt 0 (r4 10 0xFF 0 0) []) 3 ∧
    (stateAt 0 (r4 10 0xFF 0 0) []).readReg 1 = 0xFF := by decide
/-- StackWriteIsFetched, opcode position: PUSH R0 at 0xF1 stores at 0xF3, which is the next `pc`. -/
theorem witness_StackWriteIsFetched_push : ∃ t, exec (.push 0) (stateAt 0xF1 (r4 0x01 0 0 0) [0x45, 0]) = .next t ∧
    Selects (stateAt 0xF1 (r4 0x01 0 0 0) [0x45, 0]).config 0 0 ∧ Readable (stateAt 0xF1 (r4 0x01 0 0 0) [0x45, 0]) 0 ∧
    AdvanceFits (stateAt 0xF1 (r4 0x01 0 0 0) [0x45, 0]) 2 ∧ FetchFits t ∧ t.pc = t.sp :=
  ⟨_, rfl, by decide, by decide, by decide, by decide, by decide⟩
/-- StackWriteIsFetched, opcode position after CALL R7, which goes to the cell it wrote; at the last address. -/
theorem witness_StackWriteIsFetched_call_sp : ∃ t, exec (.call 7) (stateAt 0xFF (r4 0 0 0 0) []) = .next t ∧
    Selects (stateAt 0xFF (r4 0 0 0 0) []).config 7 spIdx ∧ Readable (stateAt 0xFF (r4 0 0 0 0) []) spIdx ∧
    FetchFits t ∧ t.pc = t.sp := ⟨_, rfl, by decide, by decide, by decide, by decide⟩
/-- StackWriteIsFetched, the two operand positions: CALL R0 and CALL R1 store at 0xF3 and go to 0xF2 and 0xF1. -/
theorem witness_StackWriteIsFetched_operands :
    (∃ t, exec (.call 0) (stateAt 0 (r4 0xF2 0xF1 0 0) []) = .next t ∧ FetchFits t ∧ t.pc + 1 = t.sp) ∧
    ∃ t, exec (.call 1) (stateAt 0 (r4 0xF2 0xF1 0 0) []) = .next t ∧ FetchFits t ∧ t.pc + 2 = t.sp :=
  ⟨⟨_, rfl, by decide, by decide⟩, _, rfl, by decide, by decide⟩
/-- ResetEstablishesTheConstructionState, under both forms of `REG_INIT`. -/
theorem witness_Reset_regInit : Config.specDefault.regInit = .unwritten ∧
    Config.atReset.regInit = .vector (Vector.replicate 7 0) := by decide
theorem witness_Launch_lengths : ([] : List Byte).length ≤ 256 ∧ (List.replicate 256 (1 : Byte)).length ≤ 256 ∧
    256 < (List.replicate 257 (1 : Byte)).length := by
  rw [List.length_replicate, List.length_replicate]
  decide
theorem witness_NewLaunch : State.reset.status = .running ∧ { State.reset with status := .halted }.status ≠ .running ∧
    { State.reset with status := .fault }.status ≠ .running := by decide

end Sys2Proof.Tests
end

/-! # The source checks: the first unwritten source register faults (R14, R24, R107 item 6) -/

namespace Sys2Proof.Machine

variable (s : State)

/-- The fault of a source read of the unwritten register that operand `b` selects (R14, R182). -/
def unwrittenTrap (b : Byte) : Trap := ⟨.unwrittenRegister, some (BitVec.ofNat 8 (operandReg b).val)⟩

/-- The first of these source operands whose register is not written is `b`. -/
abbrev FirstUnwritten (operands : List Byte) (b : Byte) : Prop :=
  operands.find? (fun c => !s.isWritten (operandReg c)) = some b

theorem State.raise_unwrittenTrap (b : Byte) :
    s.raise (unwrittenTrap b) =
      s.faulted .unwrittenRegister (some (BitVec.ofNat 8 (operandReg b).val)) := rfl

/-- A meaning whose first check fails takes that fault, whatever it would check or do next. -/
theorem State.attempt_bind_error {α : Type} {x : Except Trap α} {e : Trap} (h : x = .error e)
    (f : α → Except Trap State) : s.attempt (x >>= f) = .next (s.raise e) := by
  simp [h]

variable {s} {a b c : Byte}

/-! ## Which operand is the first unwritten one -/

theorem firstUnwritten_singleton : FirstUnwritten s [a] c ↔ s.isWritten (operandReg a) = false ∧ a = c := by
  simp [FirstUnwritten, List.find?_singleton]

theorem firstUnwritten_cons_of_unwritten {l : List Byte} (h : s.isWritten (operandReg a) = false) :
    FirstUnwritten s (a :: l) c ↔ a = c := by
  simp [FirstUnwritten, h]

theorem firstUnwritten_cons_of_written {l : List Byte} (h : s.isWritten (operandReg a) = true) :
    FirstUnwritten s (a :: l) c ↔ FirstUnwritten s l c := by
  simp [FirstUnwritten, h]

/-- A branch has an unwritten source only if it is taken. -/
theorem firstUnwritten_ite {p : Prop} [Decidable p] {l : List Byte} :
    FirstUnwritten s (if p then l else []) c ↔ p ∧ FirstUnwritten s l c := by
  by_cases h : p <;> simp [FirstUnwritten, h]

theorem State.condEq_eq_true : s.condEq = true ↔ s.fl = 1 := by
  simp [State.condEq, flEqual]

theorem State.condNe_eq_true : s.condNe = true ↔ s.fl = 2 ∨ s.fl = 4 := by
  simp [State.condNe, flGreater, flLess]

/-! ## The checks, where the index checks and the read of `FL` pass -/

theorem State.selectReg_operandReg (hidx : s.config.regIndex = .fault → a.toNat < 8) :
    s.selectReg a = .ok (operandReg a) :=
  s.selectReg_eq_ok.mpr ⟨hidx, rfl⟩

theorem State.checkFlags_ok (hfl : s.config.flagsUnset = .fault → s.fl ≠ 0) : s.checkFlags = .ok () := by
  obtain ⟨hp, hz, -⟩ | ⟨-, h⟩ := s.checkFlags_cases
  · exact absurd hz (hfl hp)
  · exact h

section SourceOperands

variable (hinit : s.config.regInit = .unwritten)
include hinit

theorem State.checkWritten_unwritten (h : s.isWritten (operandReg a) = false) :
    s.checkWritten (operandReg a) = .error (unwrittenTrap a) :=
  s.checkWritten_eq_error.mpr ⟨hinit, h, rfl⟩

theorem State.sourceReg_unwritten (hidx : s.config.regIndex = .fault → ∀ r ∈ [a], r.toNat < 8)
    (hfirst : FirstUnwritten s [a] c) : s.sourceReg a = .error (unwrittenTrap c) := by
  obtain ⟨hw, rfl⟩ := firstUnwritten_singleton.mp hfirst
  have ha := State.selectReg_operandReg fun hp => hidx hp a (by simp)
  exact s.sourceReg_eq_error.mpr (.inr ⟨_, ha, State.checkWritten_unwritten hinit hw⟩)

/-- Both indices are checked before either written bit, and then `a` comes before `b`. -/
theorem State.sourcePair_unwritten (hidx : s.config.regIndex = .fault → ∀ r ∈ [a, b], r.toNat < 8)
    (hfirst : FirstUnwritten s [a, b] c) : s.sourcePair a b = .error (unwrittenTrap c) := by
  have ha := State.selectReg_operandReg fun hp => hidx hp a (by simp)
  have hb := State.selectReg_operandReg fun hp => hidx hp b (by simp)
  refine s.sourcePair_eq_error.mpr (.inr ⟨_, ha, .inr ⟨_, hb, ?_⟩⟩)
  cases hwa : s.isWritten (operandReg a) with
  | false =>
    obtain rfl := (firstUnwritten_cons_of_unwritten hwa).mp hfirst
    exact .inl (State.checkWritten_unwritten hinit hwa)
  | true =>
    rw [firstUnwritten_cons_of_written hwa] at hfirst
    obtain ⟨hwb, rfl⟩ := firstUnwritten_singleton.mp hfirst
    exact .inr ⟨s.checkWritten_eq_ok.mpr fun _ => hwa, State.checkWritten_unwritten hinit hwb⟩

/-- A taken branch reads its register after the index check and the read of `FL`. -/
theorem State.branchStep_unwritten {taken : Bool} (htaken : taken = true)
    (hidx : s.config.regIndex = .fault → ∀ r ∈ [a], r.toNat < 8)
    (hfl : s.config.flagsUnset = .fault → s.fl ≠ 0) (hfirst : FirstUnwritten s [a] c) :
    s.branchStep taken a = .error (unwrittenTrap c) := by
  obtain ⟨hw, rfl⟩ := firstUnwritten_singleton.mp hfirst
  have ha := State.selectReg_operandReg fun hp => hidx hp a (by simp)
  simp [State.branchStep, State.branchPc, htaken, ha, State.checkFlags_ok hfl,
    State.checkWritten_unwritten hinit hw]

end SourceOperands

/-- Settles O13, instruction by instruction: those that read source registers check them before anything else but the
operand indices and, in a branch, `FL`; the others have no source operand that could be unwritten. -/
theorem unwrittenSourceFaults : Obligations.UnwrittenSourceFaults := by
  intro i s c hinit hidx hfl hfirst
  rw [← State.raise_unwrittenTrap]
  cases i with
  | ldi | hlt | pop | ret => cases hfirst
  | prn | push | call | jmp => exact s.attempt_bind_error (State.sourceReg_unwritten hinit hidx hfirst) _
  | mul | add | cmp => exact s.attempt_bind_error (State.sourcePair_unwritten hinit hidx hfirst) _
  | jeq a =>
    obtain ⟨htaken, hfirst⟩ := firstUnwritten_ite.mp hfirst
    have h := State.branchStep_unwritten hinit (State.condEq_eq_true.mpr htaken) hidx (hfl rfl) hfirst
    exact s.attempt_eq_next.mpr (.inr ⟨_, h, rfl⟩)
  | jne a =>
    obtain ⟨htaken, hfirst⟩ := firstUnwritten_ite.mp hfirst
    have h := State.branchStep_unwritten hinit (State.condNe_eq_true.mpr htaken) hidx (hfl rfl) hfirst
    exact s.attempt_eq_next.mpr (.inr ⟨_, h, rfl⟩)

end Sys2Proof.Machine

/-! # What an instruction and a step can leave (R104, R107, R183) -/

namespace Sys2Proof.Machine

/-- The state that an instruction leaves when no check fails. Values and addresses that no statement about a whole step
asks for stay open here: the results are said by the instruction's own inversion lemma. -/
inductive Effect (s : State) : Instr → State → Prop where
  | ldi {a imm : Byte} {r : RegIdx} (v p : Byte) (ha : s.selectReg a = .ok r) :
      Effect s (.ldi a imm) ((s.writeReg r v).setPc p)
  | add {a b : Byte} {r : RegIdx} (v p : Byte) (ha : s.selectReg a = .ok r) :
      Effect s (.add a b) ((s.writeReg r v).setPc p)
  | mul {a b : Byte} {r : RegIdx} (v p : Byte) (ha : s.selectReg a = .ok r) :
      Effect s (.mul a b) ((s.writeReg r v).setPc p)
  | hlt : Effect s .hlt (s.halt.setPc 0)
  | prn {a : Byte} {r : RegIdx} (p : Byte) (ha : s.selectReg a = .ok r) :
      Effect s (.prn a) ((s.emitOut (s.readReg r)).setPc p)
  | push {a : Byte} (v p : Byte) : Effect s (.push a) ((s.push v).setPc p)
  | pop {a : Byte} {r : RegIdx} (v p : Byte) (ha : s.selectReg a = .ok r) :
      Effect s (.pop a) (((s.writeReg spIdx (s.sp + 1)).writeReg r v).setPc p)
  | call {a : Byte} (v p : Byte) : Effect s (.call a) ((s.push v).setPc p)
  | ret (p : Byte) : Effect s .ret ((s.writeReg spIdx (s.sp + 1)).setPc p)
  | cmp {a b : Byte} (x y p : Byte) : Effect s (.cmp a b) ((s.compare x y).setPc p)
  | jeq {a : Byte} (p : Byte) : Effect s (.jeq a) (s.setPc p)
  | jmp {a : Byte} (p : Byte) : Effect s (.jmp a) (s.setPc p)
  | jne {a : Byte} (p : Byte) : Effect s (.jne a) (s.setPc p)

/-- A check of an instruction's execution that fails at `s` with trap `e` (R107 items 5 to 7). No instruction advances
by more than three bytes. -/
inductive CheckFails (s : State) (e : Trap) : Prop where
  | index {b : Byte} (h : s.selectReg b = .error e)
  | flags (h : s.checkFlags = .error e)
  | source {r : RegIdx} (h : s.checkWritten r = .error e)
  | advance {len : Nat} (hlen : len ≤ 3) (h : s.nextPc len = .error e)

variable {s t : State} {i : Instr} {a b : Byte} {r : RegIdx} {e : Trap}

theorem CheckFails.of_sourceReg (h : s.sourceReg a = .error e) : CheckFails s e := by
  obtain h | ⟨_, -, h⟩ := s.sourceReg_eq_error.mp h
  · exact .index h
  · exact .source h

theorem CheckFails.of_sourcePair (h : s.sourcePair a b = .error e) : CheckFails s e := by
  obtain h | ⟨_, -, h | ⟨_, -, h | ⟨-, h⟩⟩⟩ := s.sourcePair_eq_error.mp h
  · exact .index h
  · exact .index h
  · exact .source h
  · exact .source h

theorem State.selectReg_of_sourceReg (h : s.sourceReg a = .ok r) : s.selectReg a = .ok r :=
  (s.sourceReg_eq_ok.mp h).1

theorem State.selectReg_of_sourcePair {q : RegIdx} (h : s.sourcePair a b = .ok (r, q)) : s.selectReg a = .ok r :=
  (s.sourcePair_eq_ok.mp h).1

/-- A conditional branch fails a check or changes `pc` alone. -/
theorem State.branchStep_effect {taken : Bool} (h : s.attempt (s.branchStep taken a) = .next t) :
    (∃ e, CheckFails s e ∧ t = s.raise e) ∨ ∃ p, t = s.setPc p := by
  obtain ⟨e, he, rfl⟩ | ⟨_, -, -, -, rfl⟩ | ⟨_, p, -, -, -, -, rfl⟩ := State.branchStep_cases h
  · refine .inl ⟨e, ?_, rfl⟩
    obtain he | he | ⟨-, he⟩ | ⟨-, he⟩ := he
    · exact .index he
    · exact .flags he
    · exact .of_sourceReg he
    · exact .advance (by decide) he
  · exact .inr ⟨_, rfl⟩
  · exact .inr ⟨p, rfl⟩

/-- Every instruction raises the trap of a failing check or has its effect. -/
theorem exec_effect (h : exec i s = .next t) : (∃ e, CheckFails s e ∧ t = s.raise e) ∨ Effect s i t := by
  cases i with
  | ldi a imm =>
    obtain ⟨e, he, rfl⟩ | ⟨r, p, ha, -, rfl⟩ := execLdi_cases h
    · exact .inl ⟨e, he.elim .index (.advance (by decide)), rfl⟩
    · exact .inr (.ldi _ p ha)
  | hlt =>
    obtain rfl := Host.Outcome.next.inj ((execHlt_eq s).symm.trans h)
    exact .inr .hlt
  | prn a =>
    obtain ⟨e, he, rfl⟩ | ⟨r, p, ha, -, rfl⟩ := execPrn_cases h
    · exact .inl ⟨e, he.elim .of_sourceReg (.advance (by decide)), rfl⟩
    · exact .inr (.prn p (State.selectReg_of_sourceReg ha))
  | mul a b =>
    obtain ⟨e, he, rfl⟩ | ⟨r, q, p, ha, -, rfl⟩ := execMul_cases h
    · exact .inl ⟨e, he.elim .of_sourcePair (.advance (by decide)), rfl⟩
    · exact .inr (.mul _ p (State.selectReg_of_sourcePair ha))
  | push a =>
    obtain ⟨e, he, rfl⟩ | ⟨r, p, -, -, rfl⟩ := execPush_cases h
    · exact .inl ⟨e, he.elim .of_sourceReg (.advance (by decide)), rfl⟩
    · exact .inr (.push _ p)
  | pop a =>
    obtain ⟨e, he, rfl⟩ | ⟨r, p, ha, -, rfl⟩ := execPop_cases h
    · exact .inl ⟨e, he.elim .index (.advance (by decide)), rfl⟩
    · exact .inr (.pop _ p ha)
  | call a =>
    obtain ⟨e, he, rfl⟩ | ⟨r, -, rfl⟩ := execCall_cases h
    · exact .inl ⟨e, .of_sourceReg he, rfl⟩
    · exact .inr (.call _ _)
  | ret =>
    obtain rfl := Host.Outcome.next.inj ((execRet_eq s).symm.trans h)
    exact .inr (.ret _)
  | add a b =>
    obtain ⟨e, he, rfl⟩ | ⟨r, q, p, ha, -, rfl⟩ := execAdd_cases h
    · exact .inl ⟨e, he.elim .of_sourcePair (.advance (by decide)), rfl⟩
    · exact .inr (.add _ p (State.selectReg_of_sourcePair ha))
  | cmp a b =>
    obtain ⟨e, he, rfl⟩ | ⟨r, q, p, -, -, rfl⟩ := execCmp_cases h
    · exact .inl ⟨e, he.elim .of_sourcePair (.advance (by decide)), rfl⟩
    · exact .inr (.cmp _ _ p)
  | jeq a =>
    obtain hf | ⟨p, rfl⟩ := State.branchStep_effect h
    · exact .inl hf
    · exact .inr (.jeq p)
  | jmp a =>
    obtain ⟨e, he, rfl⟩ | ⟨r, -, rfl⟩ := execJmp_cases h
    · exact .inl ⟨e, .of_sourceReg he, rfl⟩
    · exact .inr (.jmp _)
  | jne a =>
    obtain hf | ⟨p, rfl⟩ := State.branchStep_effect h
    · exact .inl hf
    · exact .inr (.jne p)

/-! ## The step -/

/-- The window that a step decodes is the one the statements name (R97). -/
theorem State.fetchWindow_eq_windowAt (s : State) : s.fetchWindow = windowAt s := by
  simp [State.fetchWindow, windowAt, BitVec.ofNat_add]

theorem decode_error_iff (w : Window) : decode w = .error (.unknownOpcode w.op) ↔ w.op ∉ knownOpcodes := by
  have hknown : w.op ∈ knownOpcodes ↔ ∃ row ∈ decodeTable, row.opcode = w.op :=
    List.mem_map (f := DecodeRow.opcode) (l := decodeTable)
  rw [hknown]
  obtain ⟨row, hrow, hop, h⟩ | ⟨hnone, h⟩ := decode_cases w
  · exact ⟨fun h' => absurd (h.symm.trans h') (by simp), fun hn => absurd ⟨row, hrow, hop⟩ hn⟩
  · exact ⟨fun _ ⟨row, hrow, hop⟩ => hnone row hrow hop, fun _ => h⟩

theorem op_mem_knownOpcodes_of_decode {w : Window} (h : decode w = .ok i) : w.op ∈ knownOpcodes := by
  by_contra hn
  simp [(decode_error_iff w).mpr hn] at h

/-- A trap that a step takes at `s`: the fetch's, that of an unknown opcode, or that of an instruction's check. -/
inductive StepTrap (s : State) : Trap → Prop where
  | fetch (hpolicy : s.config.addrOverflow = .fault) (hpc : 254 ≤ s.pc.toNat) :
      StepTrap s ⟨.fetchOutOfRange, none⟩
  | opcode (hpolicy : s.config.unknownOpcode = .fault) (hop : s.memRead s.pc ∉ knownOpcodes) :
      StepTrap s ⟨.unknownOpcode, some (s.memRead s.pc)⟩
  | check {e : Trap} (hfetch : FetchFits s) (h : CheckFails s e) : StepTrap s e

/-- What a step leaves: a fault, one more diagnostic record, or the effect of the decoded instruction. -/
inductive StepEffect (s t : State) : Prop where
  | trap {e : Trap} (he : StepTrap s e) (ht : t = s.raise e)
  | stall (hpolicy : s.config.unknownOpcode = .stall) (hop : s.memRead s.pc ∉ knownOpcodes)
      (ht : t = s.emitDiag (s.memRead s.pc))
  | instr {i : Instr} (hi : decode (windowAt s) = .ok i) (hop : s.memRead s.pc ∈ knownOpcodes) (heff : Effect s i t)

theorem step_effect (h : step s = .next t) : s.status = .running ∧ StepEffect s t := by
  obtain ⟨hs, h⟩ := step_cases h
  refine ⟨hs, ?_⟩
  rw [s.fetchWindow_eq_windowAt] at h
  obtain ⟨hp, hpc, rfl⟩ | ⟨hfetch, ⟨hd, hu⟩ | ⟨i, hd, hx⟩⟩ := h
  · exact .trap (.fetch hp hpc) rfl
  · have hop := (decode_error_iff _).mp hd
    obtain ⟨hp, h⟩ | ⟨hp, h⟩ := s.unknownOpcode_cases (windowAt s).op
    · exact .trap (.opcode hp hop) (Host.Outcome.next.inj (hu.symm.trans h))
    · exact .stall hp hop (Host.Outcome.next.inj (hu.symm.trans h))
  · obtain ⟨e, he, rfl⟩ | heff := exec_effect hx
    · exact .trap (.check hfetch he) rfl
    · exact .instr hd (op_mem_knownOpcodes_of_decode hd) heff

/-! ## What an effect leaves unchanged -/

/-- Every written bit of `s` is set in `t`, and every register that differs between them is marked in `t` (R24). -/
abbrev WritesMarked (s t : State) : Prop :=
  ∀ r, (s.isWritten r = true → t.isWritten r = true) ∧ (t.readReg r ≠ s.readReg r → t.isWritten r = true)

theorem WritesMarked.of_sameRegs (h : SameRegs s t) : WritesMarked s t :=
  fun r => ⟨fun hw => (h r).2.trans hw, fun hne => absurd (h r).1 hne⟩

theorem WritesMarked.writeReg (h : WritesMarked s t) (i : RegIdx) (v : Byte) : WritesMarked s (t.writeReg i v) := by
  intro r
  obtain ⟨hkept, hnew⟩ := h r
  by_cases hr : r = i
  · subst hr; simp
  · simpa [State.readReg_writeReg_ne t hr, State.isWritten_writeReg_ne t hr] using ⟨hkept, hnew⟩

theorem WritesMarked.push (v : Byte) : WritesMarked s (s.push v) := by
  rw [State.push_eq]
  exact WritesMarked.writeReg (.of_sameRegs fun _ => ⟨rfl, rfl⟩) spIdx _

namespace Effect

theorem config_eq (h : Effect s i t) : t.config = s.config := by cases h <;> rfl

theorem diag_eq (h : Effect s i t) : t.diag = s.diag := by cases h <;> rfl

theorem out_eq (h : Effect s i t) (hi : ∀ a, i ≠ .prn a) : t.out = s.out := by
  cases h with
  | prn => exact absurd rfl (hi _)
  | _ => rfl

theorem fl_eq (h : Effect s i t) (hi : ∀ a b, i ≠ .cmp a b) : t.fl = s.fl := by
  cases h with
  | cmp => exact absurd rfl (hi _ _)
  | _ => rfl

theorem status_eq (h : Effect s i t) (hi : i ≠ .hlt) : t.status = s.status := by
  cases h with
  | hlt => exact absurd rfl hi
  | _ => rfl

theorem record_eq (h : Effect s i t) :
    t.faultCause = s.faultCause ∧ t.faultPc = s.faultPc ∧ t.faultInfo = s.faultInfo := by
  cases h <;> exact ⟨rfl, rfl, rfl⟩

theorem sameStatus (h : Effect s i t) (hi : i ≠ .hlt) : SameStatusOrFault s t :=
  .inl ⟨h.status_eq hi, h.record_eq⟩

theorem writesMarked (h : Effect s i t) : WritesMarked s t := by
  have hrefl : WritesMarked s s := .of_sameRegs fun _ => ⟨rfl, rfl⟩
  cases h with
  | ldi v | add v | mul v => exact hrefl.writeReg _ v
  | push v | call v => exact .push v
  | pop v => exact (hrefl.writeReg spIdx _).writeReg _ v
  | ret => exact hrefl.writeReg spIdx _
  | hlt | prn | cmp | jeq | jmp | jne => exact .of_sameRegs fun _ => ⟨rfl, rfl⟩

theorem mem_wf (h : Effect s i t) (hm : Memory.wf s.mem) : Memory.wf t.mem := by
  cases h with
  | push v | call v => exact s.push_wf v hm
  | _ => exact hm

end Effect

end Sys2Proof.Machine

/-! # The invariant of the machine (R24, R26, R104, R122, R180, R183) -/

namespace Sys2Proof.Machine

variable {s t : State} {i : Instr} {e : Trap}

/-- While a machine runs, its invariant says nothing of the fault record. -/
theorem State.Inv.of_running (hs : s.status = .running) (hmem : Memory.wf s.mem)
    (hfl : s.fl = 0 ∨ s.fl = 1 ∨ s.fl = 2 ∨ s.fl = 4) (hsp : s.isWritten spIdx = true)
    (hvec : s.config.regInit ≠ .unwritten → ∀ r, s.isWritten r = true)
    (hdiag : ∀ d ∈ s.diag, s.config.unknownOpcode = .stall ∧ d.opcode ∉ knownOpcodes) : s.Inv where
  memCanonical := hmem
  flReachable := hfl
  spWritten := hsp
  vectorWritten := hvec
  haltedAtZero h := by simp [hs] at h
  faultPcIsPc h := by simp [hs] at h
  faultRecordFits h := by simp [hs] at h
  diagUnknown := hdiag

/-! ## The record of a fault -/

/-- A written SP is not the register of an UNWRITTEN_REGISTER fault. -/
theorem val_lt_seven_of_unwritten {r : RegIdx} (hsp : s.isWritten spIdx = true) (hr : s.isWritten r = false) :
    r.val < 7 := by
  have hne : r ≠ spIdx := fun h => by simp [h, hsp] at hr
  have := Fin.val_ne_of_ne hne
  simp only [spIdx] at this
  omega

/-- The advance fails only for a three-byte instruction at 253 (R103), as the fetch window fits. -/
theorem CheckFails.recordFits (hsp : s.isWritten spIdx = true) (hfetch : FetchFits s) (h : CheckFails s e) :
    FaultRecordFits (s.raise e) := by
  cases h with
  | index h =>
    obtain ⟨hp, hb, rfl⟩ := s.selectReg_eq_error.mp h
    exact ⟨hp, _, rfl, hb⟩
  | flags h =>
    obtain ⟨hp, hz, hf⟩ | ⟨-, hf⟩ := s.checkFlags_cases
    · cases h.symm.trans hf
      exact ⟨hp, hz, rfl⟩
    · cases h.symm.trans hf
  | source h =>
    obtain ⟨hp, hw, rfl⟩ := s.checkWritten_eq_error.mp h
    exact ⟨hp, _, val_lt_seven_of_unwritten hsp hw, hw, rfl⟩
  | advance hlen h =>
    obtain ⟨hp, hpc, rfl⟩ := s.nextPc_eq_error.mp h
    have := hfetch hp
    exact ⟨hp, show s.pc.toNat = 253 by omega, rfl⟩

theorem StepTrap.recordFits (hsp : s.isWritten spIdx = true) (h : StepTrap s e) : FaultRecordFits (s.raise e) := by
  cases h with
  | fetch hpolicy hpc => exact ⟨hpolicy, hpc, rfl⟩
  | opcode hpolicy hop => exact ⟨hpolicy, _, rfl, hop⟩
  | check hfetch h => exact h.recordFits hsp hfetch

/-! ## The three outcomes of a step keep the invariant -/

theorem State.Inv.raise (h : s.Inv) (hrec : FaultRecordFits (s.raise e)) : (s.raise e).Inv where
  memCanonical := h.memCanonical
  flReachable := h.flReachable
  spWritten := h.spWritten
  vectorWritten := h.vectorWritten
  haltedAtZero hh := by simp at hh
  faultPcIsPc _ := rfl
  faultRecordFits _ := hrec
  diagUnknown := h.diagUnknown

theorem State.Inv.emitDiag {op : Byte} (h : s.Inv) (hs : s.status = .running)
    (hpolicy : s.config.unknownOpcode = .stall) (hop : op ∉ knownOpcodes) : (s.emitDiag op).Inv := by
  refine .of_running hs h.memCanonical h.flReachable h.spWritten h.vectorWritten fun d hd => ?_
  obtain hd | hd := List.mem_append.mp hd
  · exact h.diagUnknown d hd
  · obtain rfl := List.mem_singleton.mp hd
    exact ⟨hpolicy, hop⟩

theorem compareFlags_reachable (x y : Byte) :
    compareFlags x y = 1 ∨ compareFlags x y = 2 ∨ compareFlags x y = 4 := by
  unfold compareFlags flEqual flGreater flLess
  split
  · exact .inl rfl
  · split
    · exact .inr (.inl rfl)
    · exact .inr (.inr rfl)

theorem Effect.flReachable (h : Effect s i t) (hfl : s.fl = 0 ∨ s.fl = 1 ∨ s.fl = 2 ∨ s.fl = 4) :
    t.fl = 0 ∨ t.fl = 1 ∨ t.fl = 2 ∨ t.fl = 4 := by
  cases h with
  | cmp x y => exact .inr (compareFlags_reachable x y)
  | _ => exact hfl

/-- No effect ends in FAULT, and only HLT's in HALTED, at `pc` 0 (R122). -/
theorem Effect.status_cases (h : Effect s i t) : t.status = s.status ∨ (t.status = .halted ∧ t.pc = 0) := by
  cases h with
  | hlt => exact .inr ⟨rfl, rfl⟩
  | _ => exact .inl rfl

theorem Effect.status_ne_fault (h : Effect s i t) (hs : s.status = .running) : t.status ≠ .fault := by
  obtain hr | ⟨hh, -⟩ := h.status_cases
  · simp [hr, hs]
  · simp [hh]

theorem Effect.inv (heff : Effect s i t) (h : s.Inv) (hs : s.status = .running) : t.Inv := by
  have hstatus := heff.status_cases
  rw [hs] at hstatus
  have hnofault := heff.status_ne_fault hs
  exact {
    memCanonical := heff.mem_wf h.memCanonical
    flReachable := heff.flReachable h.flReachable
    spWritten := (heff.writesMarked spIdx).1 h.spWritten
    vectorWritten := by
      rw [heff.config_eq]
      exact fun hv r => (heff.writesMarked r).1 (h.vectorWritten hv r)
    haltedAtZero := fun hh => hstatus.elim (fun hr => by simp [hr] at hh) And.right
    faultPcIsPc := fun hf => absurd hf hnofault
    faultRecordFits := fun hf => absurd hf hnofault
    diagUnknown := by
      rw [heff.config_eq, heff.diag_eq]
      exact h.diagUnknown }

/-- Settles O39, over the three outcomes of a step. -/
theorem stepKeepsTheInvariant : Obligations.StepKeepsTheInvariant := by
  intro s t hinv hstep
  obtain ⟨hs, h⟩ := step_effect hstep
  cases h with
  | trap he ht => exact ht ▸ hinv.raise (he.recordFits hinv.spWritten)
  | stall hpolicy hop ht => exact ht ▸ hinv.emitDiag hs hpolicy hop
  | instr _ _ heff => exact heff.inv hinv hs

/-! ## The reset state (R24, R35) -/

theorem State.readReg_resetWith (c : Config) (r : RegIdx) : (State.resetWith c).readReg r = resetReg c r := by
  simp [State.readReg, State.resetWith]

theorem State.isWritten_resetWith (c : Config) (r : RegIdx) :
    (State.resetWith c).isWritten r = resetWritten c r := by
  simp [State.isWritten, State.resetWith]

theorem resetWritten_spIdx (c : Config) : resetWritten c spIdx = true := rfl

theorem resetWritten_of_unwritten {c : Config} (h : c.regInit = .unwritten) {r : RegIdx} (hr : r ≠ spIdx) :
    resetWritten c r = false := by
  simp [resetWritten, hr, h]

theorem resetWritten_of_vector {c : Config} {v : Vector Byte 7} (h : c.regInit = .vector v) (r : RegIdx) :
    resetWritten c r = true := by
  simp [resetWritten, h]

theorem resetReg_of_vector {c : Config} {v : Vector Byte 7} (h : c.regInit = .vector v) {k : Nat} (hk : k < 7) :
    resetReg c ⟨k, by omega⟩ = v[k] := by
  simp [resetReg, hk, h]

theorem State.resetWith_inv (c : Config) : (State.resetWith c).Inv := by
  refine .of_running rfl (State.resetWith_mem_wf c) (.inl rfl) ?_ (fun hvec r => ?_) (fun d hd => ?_)
  · rw [State.isWritten_resetWith, resetWritten_spIdx]
  · rw [State.isWritten_resetWith]
    cases hi : c.regInit with
    | unwritten => exact absurd hi hvec
    | vector v => exact resetWritten_of_vector hi r
  · cases hd

/-- Settles O40, as `State.reset` is the reset state under one choice of the parameters. -/
theorem resetMeetsTheInvariant : Obligations.ResetMeetsTheInvariant := by
  unfold Obligations.ResetMeetsTheInvariant
  rw [State.reset_eq_resetWith]
  exact State.resetWith_inv Config.atReset

/-- Settles O51, register by register from `resetReg` and `resetWritten`. -/
theorem resetEstablishesTheConstructionState : Obligations.ResetEstablishesTheConstructionState := by
  intro c s
  refine ⟨State.readReg_resetWith c spIdx, (State.isWritten_resetWith c spIdx).trans (resetWritten_spIdx c),
    fun hi r hr => ?_, fun v hi k hk => ⟨?_, ?_⟩, rfl, rfl, rfl, rfl, rfl, rfl, fun _ => rfl⟩
  · exact (State.isWritten_resetWith c r).trans (resetWritten_of_unwritten hi hr)
  · exact (State.readReg_resetWith c _).trans (resetReg_of_vector hi hk)
  · exact (State.isWritten_resetWith c _).trans (resetWritten_of_vector hi _)

end Sys2Proof.Machine

/-! # What a step changes and what it leaves (R22, R24, R28, R32, R33, R53, R122) -/

namespace Sys2Proof.Machine

variable {s t : State} {i : Instr} {a b : Byte} {r : RegIdx}

/-- A register operand passes its index check with the register that it selects (R75, R101). -/
theorem State.selectReg_eq_ok_iff_selects : s.selectReg a = .ok r ↔ Selects s.config a r := by
  have := r.isLt
  rw [s.selectReg_eq_ok, Fin.ext_iff, low3_val, Selects]
  cases s.config.regIndex <;> simp <;> omega

theorem sameStatusOrFault_raise (s : State) (e : Trap) : SameStatusOrFault s (s.raise e) :=
  .inr ⟨e.cause, e.info, rfl⟩

/-! ## Frames of instructions -/

/-- LDI, ADD and MUL write the register that operand `a` selects, and `pc`. -/
theorem Effect.eq_writeReg (hi : i = .ldi a b ∨ i = .add a b ∨ i = .mul a b) (h : Effect s i t) :
    ∃ r v p, s.selectReg a = .ok r ∧ t = (s.writeReg r v).setPc p := by
  obtain rfl | rfl | rfl := hi <;> cases h <;> exact ⟨_, _, _, ‹_›, rfl⟩

/-- Settles O29: the completed instruction writes one selected register, and a fault writes none. -/
theorem frameOfLdiAddMul : Obligations.FrameOfLdiAddMul := by
  intro s t i a b hi hexec
  obtain ⟨e, -, rfl⟩ | heff := exec_effect hexec
  · exact ⟨fun _ _ => ⟨rfl, rfl⟩, rfl, fun _ => rfl, rfl, rfl, rfl, sameStatusOrFault_raise s e⟩
  · obtain ⟨d, v, p, ha, rfl⟩ := heff.eq_writeReg hi
    refine ⟨fun r hr => ?_, rfl, fun _ => rfl, rfl, rfl, rfl, .inl ⟨rfl, rfl, rfl, rfl⟩⟩
    have hne : r ≠ d := fun h => hr (h ▸ State.selectReg_eq_ok_iff_selects.mp ha)
    exact ⟨s.readReg_writeReg_ne hne v, s.isWritten_writeReg_ne hne v⟩

theorem Effect.same_regs_mem
    (hi : i = .prn a ∨ i = .hlt ∨ i = .cmp a b ∨ i = .jeq a ∨ i = .jmp a ∨ i = .jne a) (h : Effect s i t) :
    SameRegs s t ∧ SameMemory s t := by
  obtain rfl | rfl | rfl | rfl | rfl | rfl := hi <;> cases h <;> exact ⟨fun _ => ⟨rfl, rfl⟩, fun _ => rfl⟩

theorem execHlt_ne_raise (e : Trap) : exec .hlt s ≠ .next (s.raise e) := by
  intro h
  have := congrArg State.status (Host.Outcome.next.inj h)
  simp at this

/-- Settles O30, clause by clause from what the effects leave; HLT is the one of them that takes no fault. -/
theorem frameOfInstructionsWithoutRegisterResult : Obligations.FrameOfInstructionsWithoutRegisterResult := by
  intro s t i a b hi hexec
  obtain ⟨e, -, rfl⟩ | heff := exec_effect hexec
  · refine ⟨fun _ => ⟨rfl, rfl⟩, fun _ => rfl, rfl, rfl, fun _ => rfl, fun _ => rfl,
      fun _ => sameStatusOrFault_raise s e, ?_⟩
    rintro rfl
    exact absurd hexec (execHlt_ne_raise e)
  · obtain ⟨hregs, hmem⟩ := heff.same_regs_mem hi
    refine ⟨hregs, hmem, heff.diag_eq, heff.config_eq, fun hne => heff.fl_eq ?_, fun hne => heff.out_eq ?_,
      heff.sameStatus, fun _ => heff.record_eq⟩
    · rintro c d rfl
      obtain ⟨rfl, rfl⟩ : c = a ∧ d = b := by simpa using hi
      exact hne rfl
    · rintro c rfl
      obtain rfl : c = a := by simpa using hi
      exact hne rfl

/-! ## What a step leaves unchanged -/

/-- Settles O37: a fault, a diagnostic record and every effect keep the parameters. -/
theorem noStepChangesTheParameters : Obligations.NoStepChangesTheParameters := by
  intro s t hstep
  cases (step_effect hstep).2 with
  | trap _ ht => rw [ht, State.raise_config]
  | stall _ _ ht => rw [ht, State.emitDiag_config]
  | instr _ _ heff => exact heff.config_eq

/-- Settles O38: a fault and a diagnostic record leave the registers, and an effect marks what it writes. -/
theorem writtenBitsAreSetAndNeverCleared : Obligations.WrittenBitsAreSetAndNeverCleared := by
  intro s t r hstep
  have hmarked : WritesMarked s t := by
    cases (step_effect hstep).2 with
    | trap _ ht => exact .of_sameRegs fun _ => by simp [ht]
    | stall _ _ ht => exact .of_sameRegs fun _ => by simp [ht]
    | instr _ _ heff => exact heff.writesMarked
  exact hmarked r

/-- Settles O35: a fault leaves FAULT, a diagnostic record and every effect but HLT's leave RUNNING. -/
theorem onlyHltHaltsAndItClearsNothing : Obligations.OnlyHltHaltsAndItClearsNothing := by
  intro s t hstep hhalt
  obtain ⟨hs, h⟩ := step_effect hstep
  cases h with
  | trap _ ht => simp [ht] at hhalt
  | stall _ _ ht => simp [ht, hs] at hhalt
  | @instr i hi _ heff =>
    obtain rfl : i = .hlt := by
      by_contra hne
      simp [heff.status_eq hne, hs] at hhalt
    cases heff
    exact ⟨hi, rfl⟩

/-- A step that changes `FL` executes a CMP (R28). -/
theorem cmp_of_step_changes_fl (hstep : step s = .next t) (hfl : t.fl ≠ s.fl) :
    ∃ a b, decode (windowAt s) = .ok (.cmp a b) := by
  cases (step_effect hstep).2 with
  | trap _ ht => exact absurd (by rw [ht, State.raise_fl]) hfl
  | stall _ _ ht => exact absurd (by rw [ht, State.emitDiag_fl]) hfl
  | @instr i hi _ heff =>
    by_contra hcmp
    refine hfl (heff.fl_eq fun a b h => hcmp ⟨a, b, ?_⟩)
    rw [hi, h]

/-! ## What no check and no operation reads: related states stay related (R28, R32) -/

/-- `R` relates states that differ only in what neither a check nor an operation over registers, memory and `pc` reads. -/
structure Unread (R : State → State → Prop) : Prop where
  sameRegs : ∀ {s s'}, R s s' → s'.regs = s.regs
  sameWritten : ∀ {s s'}, R s s' → s'.written = s.written
  samePc : ∀ {s s'}, R s s' → s'.pc = s.pc
  sameMem : ∀ {s s'}, R s s' → s'.mem = s.mem
  sameConfig : ∀ {s s'}, R s s' → s'.config = s.config
  writeReg : ∀ {s s'} (r : RegIdx) (v : Byte), R s s' → R (s.writeReg r v) (s'.writeReg r v)
  memWrite : ∀ {s s'} (a v : Byte), R s s' → R (s.memWrite a v) (s'.memWrite a v)
  setPc : ∀ {s s'} (p : Byte), R s s' → R (s.setPc p) (s'.setPc p)
  halt : ∀ {s s'}, R s s' → R s.halt s'.halt
  emitOut : ∀ {s s'} (v : Byte), R s s' → R (s.emitOut v) (s'.emitOut v)
  emitDiag : ∀ {s s'} (op : Byte), R s s' → R (s.emitDiag op) (s'.emitDiag op)
  compare : ∀ {s s'} (x y : Byte), R s s' → R (s.compare x y) (s'.compare x y)
  raise : ∀ {s s'} (e : Trap), R s s' → R (s.raise e) (s'.raise e)

/-- Two meanings raise the same trap, or complete in related states. -/
inductive SameOutcome (R : State → State → Prop) : Except Trap State → Except Trap State → Prop where
  | ok {t t' : State} (h : R t t') : SameOutcome R (.ok t) (.ok t')
  | error (e : Trap) : SameOutcome R (.error e) (.error e)

theorem SameOutcome.bind {R : State → State → Prop} {α : Type} (x : Except Trap α) {f f' : α → Except Trap State}
    (h : ∀ x, SameOutcome R (f x) (f' x)) : SameOutcome R (x >>= f) (x >>= f') := by
  cases x with
  | ok x => exact h x
  | error e => exact .error e

namespace Unread

variable {R : State → State → Prop} (hR : Unread R) {s s' : State} (h : R s s')
include hR h

theorem readReg_eq (r : RegIdx) : s'.readReg r = s.readReg r := by
  rw [State.readReg, hR.sameRegs h, State.readReg]

theorem memRead_eq (a : Byte) : s'.memRead a = s.memRead a := by
  rw [State.memRead, hR.sameMem h, State.memRead]

theorem sp_eq : s'.sp = s.sp := hR.readReg_eq h spIdx

theorem selectReg_eq (a : Byte) : s'.selectReg a = s.selectReg a := by
  simp only [State.selectReg, hR.sameConfig h]

theorem isWritten_eq (r : RegIdx) : s'.isWritten r = s.isWritten r := by
  rw [State.isWritten, hR.sameWritten h, State.isWritten]

theorem checkWritten_eq (r : RegIdx) : s'.checkWritten r = s.checkWritten r := by
  simp only [State.checkWritten, hR.sameConfig h, hR.isWritten_eq h]

theorem sourceReg_eq (a : Byte) : s'.sourceReg a = s.sourceReg a := by
  simp only [State.sourceReg, hR.selectReg_eq h, hR.checkWritten_eq h]

theorem sourcePair_eq (a b : Byte) : s'.sourcePair a b = s.sourcePair a b := by
  simp only [State.sourcePair, hR.selectReg_eq h, hR.checkWritten_eq h]

theorem nextPc_eq (len : Nat) : s'.nextPc len = s.nextPc len := by
  simp only [State.nextPc, hR.sameConfig h, hR.samePc h]

theorem fetch_eq : s'.fetch = s.fetch := by
  simp only [State.fetch, State.fetchWindow, State.memRead, hR.sameConfig h, hR.samePc h, hR.sameMem h]

theorem push (v : Byte) : R (s.push v) (s'.push v) := by
  rw [State.push_eq, State.push_eq, hR.sp_eq h]
  exact hR.memWrite _ v (hR.writeReg spIdx _ h)

theorem pop : R s.pop.2 s'.pop.2 := by
  rw [State.pop_snd, State.pop_snd, hR.sp_eq h]
  exact hR.writeReg spIdx _ h

theorem pop_fst_eq : s'.pop.1 = s.pop.1 := by
  rw [State.pop_fst, State.pop_fst, hR.sp_eq h, hR.memRead_eq h]

theorem attempt_related {c c' : Except Trap State} (hc : SameOutcome R c c') (hnext : s.attempt c = .next t) :
    ∃ t', s'.attempt c' = .next t' ∧ R t t' := by
  cases hc with
  | ok ht =>
    obtain rfl := Host.Outcome.next.inj hnext
    exact ⟨_, rfl, ht⟩
  | error e =>
    obtain rfl := Host.Outcome.next.inj hnext
    exact ⟨_, rfl, hR.raise e h⟩

theorem aluStep (op : AluOp) (a b : Byte) : SameOutcome R (s.aluStep op a b) (s'.aluStep op a b) := by
  rw [State.aluStep, State.aluStep, hR.sourcePair_eq h, hR.nextPc_eq h]
  refine .bind _ fun (ra, rb) => .bind _ fun p => ?_
  rw [hR.readReg_eq h, hR.readReg_eq h]
  exact .bind _ fun y => .ok (hR.setPc p (hR.writeReg ra y h))

theorem branchStep (hfl : s'.fl = s.fl) (taken : Bool) (a : Byte) :
    SameOutcome R (s.branchStep taken a) (s'.branchStep taken a) := by
  have hflags : s'.checkFlags = s.checkFlags := by simp only [State.checkFlags, hR.sameConfig h, hfl]
  have htarget (ra : RegIdx) : s'.branchPc taken ra 2 = s.branchPc taken ra 2 := by
    simp only [State.branchPc, hR.checkWritten_eq h, hR.readReg_eq h, hR.nextPc_eq h]
  rw [State.branchStep, State.branchStep, hR.selectReg_eq h, hflags]
  refine .bind _ fun ra => .bind _ fun _ => ?_
  rw [htarget]
  exact .bind _ fun p => .ok (hR.setPc p h)

/-- An instruction answers related states from related states, if they agree on `FL` where it reads `FL`. -/
theorem exec_related (hfl : i.readsFlags = true → s'.fl = s.fl) (hnext : exec i s = .next t) :
    ∃ t', exec i s' = .next t' ∧ R t t' := by
  cases i with
  | ldi a imm =>
    refine hR.attempt_related h ?_ hnext
    rw [hR.selectReg_eq h, hR.nextPc_eq h]
    exact .bind _ fun ra => .bind _ fun p => .ok (hR.setPc p (hR.writeReg ra imm h))
  | hlt =>
    obtain rfl := Host.Outcome.next.inj ((execHlt_eq s).symm.trans hnext)
    exact ⟨_, execHlt_eq s', hR.setPc 0 (hR.halt h)⟩
  | prn a =>
    refine hR.attempt_related h ?_ hnext
    rw [hR.sourceReg_eq h, hR.nextPc_eq h]
    refine .bind _ fun ra => .bind _ fun p => .ok (hR.setPc p ?_)
    rw [hR.readReg_eq h]
    exact hR.emitOut _ h
  | mul a b => exact hR.attempt_related h (hR.aluStep h .mul a b) hnext
  | push a =>
    refine hR.attempt_related h ?_ hnext
    rw [hR.sourceReg_eq h, hR.nextPc_eq h]
    refine .bind _ fun ra => .bind _ fun p => .ok (hR.setPc p ?_)
    rw [hR.readReg_eq h]
    exact hR.push h _
  | pop a =>
    refine hR.attempt_related h ?_ hnext
    rw [hR.selectReg_eq h, hR.nextPc_eq h]
    refine .bind _ fun ra => .bind _ fun p => .ok (hR.setPc p ?_)
    rw [hR.pop_fst_eq h]
    exact hR.writeReg ra _ (hR.pop h)
  | call a =>
    refine hR.attempt_related h ?_ hnext
    have hreturn : s'.returnAddress = s.returnAddress := by
      rw [State.returnAddress, hR.samePc h, State.returnAddress]
    have hpush := hR.push h s.returnAddress
    rw [hR.sourceReg_eq h, hreturn]
    refine .bind _ fun ra => .ok ?_
    rw [hR.readReg_eq hpush]
    exact hR.setPc _ hpush
  | ret =>
    obtain rfl := Host.Outcome.next.inj hnext
    refine ⟨_, rfl, ?_⟩
    rw [hR.pop_fst_eq h]
    exact hR.setPc _ (hR.pop h)
  | add a b => exact hR.attempt_related h (hR.aluStep h .add a b) hnext
  | cmp a b =>
    refine hR.attempt_related h ?_ hnext
    rw [hR.sourcePair_eq h, hR.nextPc_eq h]
    refine .bind _ fun (ra, rb) => .bind _ fun p => .ok (hR.setPc p ?_)
    rw [hR.readReg_eq h, hR.readReg_eq h]
    exact hR.compare _ _ h
  | jeq a =>
    have hcond : s'.condEq = s.condEq := by rw [State.condEq, hfl rfl, State.condEq]
    exact hR.attempt_related h (hcond ▸ hR.branchStep h (hfl rfl) _ a) hnext
  | jmp a =>
    refine hR.attempt_related h ?_ hnext
    rw [hR.sourceReg_eq h]
    refine .bind _ fun ra => ?_
    rw [hR.readReg_eq h]
    exact .ok (hR.setPc _ h)
  | jne a =>
    have hcond : s'.condNe = s.condNe := by rw [State.condNe, hfl rfl, State.condNe]
    exact hR.attempt_related h (hcond ▸ hR.branchStep h (hfl rfl) _ a) hnext

theorem unknownOpcode_related {op : Byte} (hnext : s.unknownOpcode op = .next t) :
    ∃ t', s'.unknownOpcode op = .next t' ∧ R t t' := by
  obtain ⟨hp, hu⟩ | ⟨hp, hu⟩ := s.unknownOpcode_cases op
  · obtain rfl := Host.Outcome.next.inj (hu.symm.trans hnext)
    exact ⟨_, by simp [State.unknownOpcode, hR.sameConfig h, hp], hR.raise _ h⟩
  · obtain rfl := Host.Outcome.next.inj (hu.symm.trans hnext)
    exact ⟨_, by simp [State.unknownOpcode, hR.sameConfig h, hp], hR.emitDiag op h⟩

/-- A step answers related states from related states that agree on the status and on `FL`. -/
theorem step_related (hstatus : s'.status = s.status) (hfl : s'.fl = s.fl) (hnext : step s = .next t) :
    ∃ t', step s' = .next t' ∧ R t t' := by
  unfold step at hnext ⊢
  rw [hstatus, hR.fetch_eq h]
  cases hs : s.status <;> rw [hs] at hnext
  case halted => cases hnext
  case fault => cases hnext
  cases hf : s.fetch with
  | error e =>
    rw [hf] at hnext
    obtain rfl := Host.Outcome.next.inj hnext
    exact ⟨_, rfl, hR.raise e h⟩
  | ok w =>
    cases hd : decode w with
    | error e =>
      obtain ⟨op⟩ := e
      simp only [hf, hd] at hnext ⊢
      exact hR.unknownOpcode_related h hnext
    | ok i =>
      simp only [hf, hd] at hnext ⊢
      exact hR.exec_related h (fun _ => hfl) hnext

end Unread

/-! ### FL -/

/-- `s'` is `s` but for the value of `FL`. -/
def DiffersInFl (s s' : State) : Prop := ∃ f, s' = { s with fl := f }

theorem unread_differsInFl : Unread DiffersInFl where
  sameRegs := by rintro s _ ⟨f, rfl⟩; rfl
  sameWritten := by rintro s _ ⟨f, rfl⟩; rfl
  samePc := by rintro s _ ⟨f, rfl⟩; rfl
  sameMem := by rintro s _ ⟨f, rfl⟩; rfl
  sameConfig := by rintro s _ ⟨f, rfl⟩; rfl
  writeReg := by rintro s _ r v ⟨f, rfl⟩; exact ⟨f, rfl⟩
  memWrite := by rintro s _ a v ⟨f, rfl⟩; exact ⟨f, rfl⟩
  setPc := by rintro s _ p ⟨f, rfl⟩; exact ⟨f, rfl⟩
  halt := by rintro s _ ⟨f, rfl⟩; exact ⟨f, rfl⟩
  emitOut := by rintro s _ v ⟨f, rfl⟩; exact ⟨f, rfl⟩
  emitDiag := by rintro s _ op ⟨f, rfl⟩; exact ⟨f, rfl⟩
  compare := by rintro s _ x y ⟨f, rfl⟩; exact ⟨_, rfl⟩
  raise := by rintro s _ e ⟨f, rfl⟩; exact ⟨f, rfl⟩

/-- Only CMP changes `FL`, faults included. -/
theorem exec_fl_eq (hexec : exec i s = .next t) (hcmp : ∀ a b, i ≠ .cmp a b) : t.fl = s.fl := by
  obtain ⟨e, -, rfl⟩ | heff := exec_effect hexec
  · rfl
  · exact heff.fl_eq hcmp

/-- Settles O33, the reading half by noninterference: `FL` is unread by every instruction but the branches. -/
theorem flagsAreWrittenByCmpAndReadByBranchesOnly : Obligations.FlagsAreWrittenByCmpAndReadByBranchesOnly := by
  refine ⟨fun s t => cmp_of_step_changes_fl, fun i s t f hreads hexec => ?_⟩
  have hrel : DiffersInFl s { s with fl := f } := ⟨f, rfl⟩
  obtain ⟨u, hu, g, rfl⟩ := unread_differsInFl.exec_related hrel (by simp [hreads]) hexec
  exact ⟨_, hu, rfl, fun hcmp => ⟨exec_fl_eq hu hcmp, exec_fl_eq hexec hcmp⟩⟩

/-! ### The streams -/

/-- `s'` is `s` with `o` and `d` put before its two streams. -/
def PrecededBy (o : List Byte) (d : List DiagRecord) (s s' : State) : Prop :=
  s' = { s with out := o ++ s.out, diag := d ++ s.diag }

theorem unread_precededBy (o : List Byte) (d : List DiagRecord) : Unread (PrecededBy o d) where
  sameRegs := by rintro s _ rfl; rfl
  sameWritten := by rintro s _ rfl; rfl
  samePc := by rintro s _ rfl; rfl
  sameMem := by rintro s _ rfl; rfl
  sameConfig := by rintro s _ rfl; rfl
  writeReg := by rintro s _ r v rfl; rfl
  memWrite := by rintro s _ a v rfl; rfl
  setPc := by rintro s _ p rfl; rfl
  halt := by rintro s _ rfl; rfl
  emitOut := by rintro s _ v rfl; simp [PrecededBy, State.emitOut]
  emitDiag := by rintro s _ op rfl; simp [PrecededBy, State.emitDiag]
  compare := by rintro s _ x y rfl; rfl
  raise := by rintro s _ e rfl; rfl

theorem launch_streams_empty {c : Config} {image : List Byte} (h : launch c image = .next s) :
    s.out = [] ∧ s.diag = [] := by
  unfold launch at h
  split at h
  · cases h
  · obtain rfl := Host.Outcome.next.inj h
    exact ⟨rfl, rfl⟩

/-- Of `out`: a PRN that completes appends its register's byte, and nothing else changes it. -/
theorem step_out (hstep : step s = .next t) :
    (∀ a r, decode (windowAt s) = .ok (.prn a) → Selects s.config a r → t.status ≠ .fault →
      t.out = s.out ++ [s.readReg r]) ∧
    ((∀ a, decode (windowAt s) ≠ .ok (.prn a)) ∨ t.status = .fault → t.out = s.out) := by
  obtain ⟨hs, h⟩ := step_effect hstep
  cases h with
  | trap _ ht => simp [ht]
  | stall _ hop ht =>
    refine ⟨fun a r hd => ?_, fun _ => by rw [ht, State.emitDiag_out]⟩
    exact absurd (op_mem_knownOpcodes_of_decode hd) hop
  | @instr i hi _ heff =>
    rw [hi]
    refine ⟨fun a r hd hsel _ => ?_, fun hno => ?_⟩
    · obtain rfl := Except.ok.inj hd
      cases heff with
      | prn p ha =>
        obtain rfl := Except.ok.inj (ha.symm.trans (State.selectReg_eq_ok_iff_selects.mpr hsel))
        rfl
    · obtain hno | hfault := hno
      · exact heff.out_eq fun a h => hno a (h ▸ rfl)
      · exact absurd hfault (heff.status_ne_fault hs)

/-- Of `diag`: an unknown opcode under `stall` appends its record, and nothing else changes it. -/
theorem step_diag (hstep : step s = .next t) :
    (s.config.unknownOpcode = .stall → s.memRead s.pc ∉ knownOpcodes → t.status ≠ .fault →
      t.diag = s.diag ++ [⟨s.memRead s.pc, s.pc⟩]) ∧
    (s.config.unknownOpcode = .fault ∨ s.memRead s.pc ∈ knownOpcodes ∨ t.status = .fault → t.diag = s.diag) := by
  obtain ⟨hs, h⟩ := step_effect hstep
  cases h with
  | trap _ ht => simp [ht]
  | stall hpolicy hop ht =>
    refine ⟨fun _ _ _ => by rw [ht, State.emitDiag_diag], fun hno => ?_⟩
    simp [hpolicy, hop, ht, hs] at hno
  | instr _ hop heff => exact ⟨fun _ hunknown => absurd hop hunknown, fun _ => heff.diag_eq⟩

/-- Settles O36: launch, the two streams one by one, and their noninterference with the step. -/
theorem streamsAppendOnlyAndAreNeverRead : Obligations.StreamsAppendOnlyAndAreNeverRead := by
  refine ⟨fun c image s => launch_streams_empty, fun s t hstep => ?_, fun s t o d hstep => ?_⟩
  · obtain ⟨hprn, hout⟩ := step_out hstep
    exact ⟨hprn, hout, step_diag hstep⟩
  · have hrel : PrecededBy o d s { s with out := o ++ s.out, diag := d ++ s.diag } := rfl
    obtain ⟨t', ht', hprec⟩ := (unread_precededBy o d).step_related hrel rfl rfl hstep
    exact ht'.trans (congrArg _ hprec)

end Sys2Proof.Machine

/-! # Decoding what was encoded (R55, R70, R76) -/

namespace Sys2Proof

/-- The table has a row for the opcode of every instruction, and it builds the instruction from the bytes that follow
the opcode in its encoding, whatever comes after them (R76). -/
theorem decodeLookup_opcode (i : Instr) (rest : List Byte) :
    ∃ row, decodeLookup i.opcode decodeTable = some row ∧
      row.build (Window.ofBytes (encode i ++ rest)).a (Window.ofBytes (encode i ++ rest)).b = i := by
  cases i <;> exact ⟨_, rfl, rfl⟩

theorem Window.ofBytes_encode_op (i : Instr) (rest : List Byte) :
    (Window.ofBytes (encode i ++ rest)).op = i.opcode := rfl

/-- Settles O1: the window begins with the instruction's opcode, and the row of that opcode builds it back. -/
theorem decodeOfEncodeIsTheInstruction : Obligations.DecodeOfEncodeIsTheInstruction := by
  intro i rest
  obtain ⟨row, hlookup, hbuild⟩ := decodeLookup_opcode i rest
  simp only [decode, Window.ofBytes_encode_op, hlookup, hbuild]

end Sys2Proof

/-! # What PUSH, CALL, POP and RET change, and who reads it (R51, R53, R64, R140 to R151, R216) -/

namespace Sys2Proof.Machine

variable {s t u : State} {i : Instr} {a b v : Byte} {r : RegIdx}

/-! ## Frames of the stack instructions -/

/-- PUSH and CALL push one byte and set `pc`. -/
theorem Effect.eq_push (hi : i = .push a ∨ i = .call a) (h : Effect s i t) :
    ∃ v p, t = (s.push v).setPc p := by
  obtain rfl | rfl := hi <;> cases h <;> exact ⟨_, _, rfl⟩

/-- Settles O31: the completed instruction is a push with a new `pc`, and a fault changes neither. -/
theorem frameOfPushAndCall : Obligations.FrameOfPushAndCall := by
  intro s t i a hi hexec
  obtain ⟨e, -, rfl⟩ | heff := exec_effect hexec
  · exact ⟨fun _ _ => ⟨rfl, rfl⟩, fun _ _ => rfl, rfl, rfl, rfl, rfl, sameStatusOrFault_raise s e⟩
  · obtain ⟨v, p, rfl⟩ := heff.eq_push hi
    refine ⟨fun r hr => ⟨s.readReg_push_ne hr v, s.isWritten_push_ne hr v⟩, fun b hb => ?_, rfl, rfl, rfl, rfl,
      .inl ⟨rfl, rfl, rfl, rfl⟩⟩
    rw [State.memRead_setPc, State.memRead_push, if_neg hb]

/-- POP and RET increment SP and set `pc`; POP then writes the register that its operand selects. -/
theorem Effect.eq_pop (hi : i = .pop a ∨ i = .ret) (h : Effect s i t) :
    (∃ r v p, i = .pop a ∧ Selects s.config a r ∧
        t = ((s.writeReg spIdx (s.sp + 1)).writeReg r v).setPc p) ∨
      ∃ p, t = (s.writeReg spIdx (s.sp + 1)).setPc p := by
  obtain rfl | rfl := hi
  · cases h with
    | pop v p ha => exact .inl ⟨_, v, p, rfl, State.selectReg_eq_ok_iff_selects.mp ha, rfl⟩
  · cases h with
    | ret p => exact .inr ⟨p, rfl⟩

/-- Settles O32: only SP and POP's register are written, and a fault writes neither. -/
theorem frameOfPopAndRet : Obligations.FrameOfPopAndRet := by
  intro s t i a hi hexec
  obtain ⟨e, -, rfl⟩ | heff := exec_effect hexec
  · exact ⟨fun _ _ _ => ⟨rfl, rfl⟩, rfl, fun _ => rfl, rfl, rfl, rfl, sameStatusOrFault_raise s e⟩
  have hsp : ∀ r, r ≠ spIdx → (s.writeReg spIdx (s.sp + 1)).readReg r = s.readReg r ∧
      (s.writeReg spIdx (s.sp + 1)).isWritten r = s.isWritten r :=
    fun r hr => ⟨s.readReg_writeReg_ne hr _, s.isWritten_writeReg_ne hr _⟩
  obtain ⟨d, v, p, hpop, hsel, rfl⟩ | ⟨p, rfl⟩ := heff.eq_pop hi
  · refine ⟨fun r hr hnot => ?_, rfl, fun _ => rfl, rfl, rfl, rfl, .inl ⟨rfl, rfl, rfl, rfl⟩⟩
    have hne : r ≠ d := fun h => hnot ⟨hpop, h ▸ hsel⟩
    rw [State.readReg_setPc, State.isWritten_setPc, State.readReg_writeReg_ne _ hne,
      State.isWritten_writeReg_ne _ hne]
    exact hsp r hr
  · exact ⟨fun r hr _ => hsp r hr, rfl, fun _ => rfl, rfl, rfl, rfl, .inl ⟨rfl, rfl, rfl, rfl⟩⟩

/-! ## Who writes memory -/

/-- Every effect but that of PUSH and CALL leaves memory alone (R53). -/
theorem Effect.eq_push_or_call (h : Effect s i t) (hb : t.memRead b ≠ s.memRead b) :
    ∃ a, i = .push a ∨ i = .call a := by
  cases h with
  | push => exact ⟨_, .inl rfl⟩
  | call => exact ⟨_, .inr rfl⟩
  | _ => exact absurd rfl hb

/-- Decrementing SP modulo 256 (R140), in the arithmetic of the statements. -/
theorem toNat_sub_one (x : Byte) : (x - 1).toNat = (x.toNat + 255) % 256 := by
  rw [BitVec.toNat_sub, Nat.add_comm]
  rfl

/-- Settles O34: the changed cell shows that the step was a PUSH or CALL, and a push changes one cell. -/
theorem memoryIsWrittenByPushAndCallOnly : Obligations.MemoryIsWrittenByPushAndCallOnly := by
  intro s t b hstep hb
  cases (step_effect hstep).2 with
  | trap _ ht => exact absurd (by rw [ht, State.memRead_raise]) hb
  | stall _ _ ht => exact absurd (by rw [ht, State.memRead_emitDiag]) hb
  | instr hi _ heff =>
    obtain ⟨a, hstack⟩ := heff.eq_push_or_call hb
    obtain ⟨v, p, rfl⟩ := heff.eq_push hstack
    have hcell : b = s.sp - 1 := by
      by_contra hne
      rw [State.memRead_setPc, State.memRead_push, if_neg hne] at hb
      exact hb rfl
    refine ⟨hcell ▸ toNat_sub_one s.sp, a, ?_⟩
    rw [hi]
    exact hstack.imp (congrArg _) (congrArg _)

/-! ## Stores reach the fetch -/

/-- A source register operand passes its two checks with the register that it selects (R14, R101). -/
theorem State.sourceReg_eq_ok_iff_selects : s.sourceReg a = .ok r ↔ Selects s.config a r ∧ Readable s r := by
  rw [State.sourceReg_eq_ok, State.selectReg_eq_ok_iff_selects, State.checkWritten_eq_ok]

/-- PUSH where its checks pass (R142). -/
theorem exec_push_of_checks (hsel : Selects s.config a r) (hread : Readable s r) (hadv : AdvanceFits s 2) :
    exec (.push a) s = .next ((s.push (s.readReg r)).setPc (BitVec.ofNat 8 (s.pc.toNat + 2))) := by
  have hsource := State.sourceReg_eq_ok_iff_selects.mpr ⟨hsel, hread⟩
  have hnext := s.nextPc_eq_ok.mpr ⟨hadv, rfl⟩
  simp [exec, execPush, hsource, hnext]

/-- CALL where its checks pass: the target is read after the push (R150). -/
theorem exec_call_of_checks (hsel : Selects s.config a r) (hread : Readable s r) :
    exec (.call a) s =
      .next ((s.push s.returnAddress).setPc ((s.push s.returnAddress).readReg r)) := by
  have hsource := State.sourceReg_eq_ok_iff_selects.mpr ⟨hsel, hread⟩
  simp [exec, execCall, hsource]

theorem State.returnAddress_eq (s : State) : s.returnAddress = BitVec.ofNat 8 (s.pc.toNat + 2) := by
  simp [State.returnAddress, BitVec.ofNat_add]

/-- PUSH and CALL store their byte at the new SP (R142, R150). -/
theorem exec_stores (hsel : Selects s.config a r) (hread : Readable s r)
    (hi : (i = .push a ∧ AdvanceFits s 2 ∧ v = s.readReg r) ∨
      (i = .call a ∧ v = BitVec.ofNat 8 (s.pc.toNat + 2))) :
    ∃ t, exec i s = .next t ∧ t.memRead t.sp = v := by
  have hcell : ∀ p, ((s.push v).setPc p).memRead ((s.push v).setPc p).sp = v := by
    simp [State.memRead_push]
  obtain ⟨rfl, hadv, rfl⟩ | ⟨rfl, rfl⟩ := hi
  · exact ⟨_, exec_push_of_checks hsel hread hadv, hcell _⟩
  · rw [← State.returnAddress_eq] at hcell ⊢
    exact ⟨_, exec_call_of_checks hsel hread, hcell _⟩

theorem State.fetch_of_fits (h : FetchFits u) : u.fetch = .ok u.fetchWindow := by
  obtain ⟨hp, hpc, -⟩ | ⟨-, hfetch⟩ := u.fetch_cases
  · have := h hp
    omega
  · exact hfetch

/-- Settles O50: memory holds one byte at an address, whoever reads it, so the fetch reads what was stored. -/
theorem stackWriteIsFetched : Obligations.StackWriteIsFetched := by
  intro s i a v r hsel hread hi
  obtain ⟨t, hexec, hcell⟩ := exec_stores hsel hread hi
  refine ⟨t, hexec, fun u hkept hfits => ⟨u.fetchWindow, State.fetch_of_fits hfits, ?_⟩⟩
  have hu : ∀ addr, addr = t.sp → u.memRead addr = v := fun addr haddr => by rw [haddr, hkept, hcell]
  exact ⟨hu _, hu _, hu _⟩

end Sys2Proof.Machine

/-! # What the decode table answers (R70, R76, R77) -/

namespace Sys2Proof

/-- What a row builds is encoded by the row's opcode and as many of the operands as its format has (R70, R76). -/
theorem encode_build {row : DecodeRow} (h : row ∈ decodeTable) (a b : Byte) :
    encode (row.build a b) = (Window.mk row.opcode a b).bytes.take (row.build a b).length := by
  revert row
  simp only [decodeTable, List.forall_mem_cons]
  refine ⟨?ldi, ?hlt, ?prn, ?mul, ?push, ?pop, ?call, ?ret, ?add, ?cmp, ?jeq, ?jmp, ?jne, List.forall_mem_nil _⟩ <;> rfl

/-- Settles O2: a window decodes to what the row of its opcode builds, and that row builds an instruction encoded so. -/
theorem decodedWindowBeginsWithEncoding : Obligations.DecodedWindowBeginsWithEncoding := by
  intro w i hdecode
  obtain ⟨row, hrow, hop, hok⟩ | ⟨-, herror⟩ := decode_cases w
  · obtain rfl := Except.ok.inj (hok.symm.trans hdecode)
    rw [encode_build hrow, hop]
  · cases herror.symm.trans hdecode

/-- Settles O3: each row is the round trip of its instruction, the unused operand bytes being the rest of the window, and
the opcodes without a row are those that are not known. -/
theorem decodeTableHasExactly13Entries : Obligations.DecodeTableHasExactly13Entries := by
  refine ⟨fun a b => ?_, fun w => (Machine.decode_error_iff w).mpr⟩
  have hrow := decodeOfEncodeIsTheInstruction
  exact ⟨⟨hrow (.ldi a b) [], rfl, rfl⟩, ⟨hrow .hlt [a, b], rfl, rfl⟩, ⟨hrow (.prn a) [b], rfl, rfl⟩,
    ⟨hrow (.mul a b) [], rfl, rfl⟩, ⟨hrow (.push a) [b], rfl, rfl⟩, ⟨hrow (.pop a) [b], rfl, rfl⟩,
    ⟨hrow (.call a) [b], rfl, rfl⟩, ⟨hrow .ret [a, b], rfl, rfl⟩, ⟨hrow (.add a b) [], rfl, rfl⟩,
    ⟨hrow (.cmp a b) [], rfl, rfl⟩, ⟨hrow (.jeq a) [b], rfl, rfl⟩, ⟨hrow (.jmp a) [b], rfl, rfl⟩,
    ⟨hrow (.jne a) [b], rfl, rfl⟩⟩

end Sys2Proof

/-! # The idioms of a move and a decrement (R82) -/

namespace Sys2Proof.Machine

variable {s : State} {a b : Byte} {r ra rb : RegIdx}

/-- POP where its checks pass (R143). -/
theorem exec_pop_of_checks (hsel : Selects s.config a r) (hadv : AdvanceFits s 2) :
    exec (.pop a) s = .next ((s.pop.2.writeReg r s.pop.1).setPc (BitVec.ofNat 8 (s.pc.toNat + 2))) := by
  have hreg := State.selectReg_eq_ok_iff_selects.mpr hsel
  have hnext := s.nextPc_eq_ok.mpr ⟨hadv, rfl⟩
  simp [exec, execPop, hreg, hnext]

/-- Two source register operands pass their checks with the registers that they select (R14, R101). -/
theorem State.sourcePair_of_selects (ha : Selects s.config a ra) (hb : Selects s.config b rb)
    (hra : Readable s ra) (hrb : Readable s rb) : s.sourcePair a b = .ok (ra, rb) :=
  s.sourcePair_eq_ok.mpr ⟨State.selectReg_eq_ok_iff_selects.mpr ha, State.selectReg_eq_ok_iff_selects.mpr hb,
    s.checkWritten_eq_ok.mpr hra, s.checkWritten_eq_ok.mpr hrb⟩

/-- ADD where its checks pass (R131). -/
theorem exec_add_of_checks (ha : Selects s.config a ra) (hb : Selects s.config b rb) (hra : Readable s ra)
    (hrb : Readable s rb) (hadv : AdvanceFits s 3) :
    exec (.add a b) s =
      .next ((s.writeReg ra (BitVec.ofNat 8 ((s.readReg ra).toNat + (s.readReg rb).toNat))).setPc
        (BitVec.ofNat 8 (s.pc.toNat + 3))) := by
  have hsource := State.sourcePair_of_selects ha hb hra hrb
  have hnext := s.nextPc_eq_ok.mpr ⟨hadv, rfl⟩
  simp [exec, execAdd, State.aluStep, alu8, hsource, hnext]

/-- Where two advances fit, the second one fits after the first (R103). -/
theorem advanceFits_setPc {m n : Nat} (h : AdvanceFits s (m + n)) :
    AdvanceFits (s.setPc (BitVec.ofNat 8 (s.pc.toNat + m))) n := by
  intro hpolicy
  have hroom := h hpolicy
  rw [State.setPc_pc, BitVec.toNat_ofNat]
  omega

/-- PUSH then POP moves a byte to another register through the cell below SP, where neither register is SP. -/
theorem exec_push_pop (ha : Selects s.config a ra) (hb : Selects s.config b rb) (hra : ra ≠ spIdx)
    (hrb : Readable s rb) (hadv : AdvanceFits s 4) :
    ∃ t u, exec (.push b) s = .next t ∧ exec (.pop a) t = .next u ∧ u.readReg ra = s.readReg rb ∧ u.sp = s.sp ∧
      u.memRead (s.sp - 1) = s.readReg rb := by
  have hpush : AdvanceFits s 2 := fun hpolicy => by
    have hroom := hadv hpolicy
    omega
  have hpop := advanceFits_setPc (s := s.push (s.readReg rb)) (m := 2) (n := 2) hadv
  refine ⟨_, _, exec_push_of_checks hb hrb hpush, exec_pop_of_checks ha hpop, ?_, ?_, ?_⟩
  · rw [State.readReg_setPc, State.readReg_writeReg_self]
    exact s.pop_push_fst (s.readReg rb)
  · rw [State.sp_setPc, State.sp_writeReg_ne _ hra]
    exact s.sp_pop_push (s.readReg rb)
  · exact (s.memRead_push (s.readReg rb) (s.sp - 1)).trans (if_pos rfl)

/-- Adding 0xFF modulo 256 is subtracting 1. -/
theorem ofNat_add_255 (x : Byte) : BitVec.ofNat 8 (x.toNat + 255) = x - 1 :=
  BitVec.eq_of_toNat_eq (by rw [toNat_sub_one, BitVec.toNat_ofNat])

/-- Settles O49: the move through the stack, and the sum with 0xFF. -/
theorem moveAndDecrementIdioms : Obligations.MoveAndDecrementIdioms := by
  refine ⟨fun s a b ra rb ha hb hra _ hrb hadv => exec_push_pop ha hb hra hrb hadv,
    fun s a k ra rk ha hk hra hrk hadv hff => ⟨_, exec_add_of_checks ha hk hra hrk hadv, ?_⟩⟩
  rw [State.readReg_setPc, State.readReg_writeReg_self, hff]
  exact ofNat_add_255 (s.readReg ra)

end Sys2Proof.Machine

/-! # What an instruction checks and what it completes with (R99, R107) -/

namespace Sys2Proof.Machine

/-- The index check of one register operand (R101). -/
def State.checkIndex (s : State) (b : Byte) : Except Trap Unit := do
  let _ ← s.selectReg b
  pure ()

/-- The range check of an advance by `len` (R103). -/
def State.checkAdvance (s : State) (len : Nat) : Except Trap Unit := do
  let _ ← s.nextPc len
  pure ()

/-- The address of the instruction after `i`, modulo 256 (R100). -/
def State.pcAfter (s : State) (i : Instr) : Byte := BitVec.ofNat 8 (s.pc.toNat + i.length)

/-- The check of `FL`, which only an instruction that reads it makes (R27). -/
def State.flagsCheckOf (s : State) (i : Instr) : Except Trap Unit :=
  if i.readsFlags then s.checkFlags else pure ()

/-- The check of the advance, which only an instruction that advances makes (R103). -/
def State.advanceCheckOf (s : State) (i : Instr) : Except Trap Unit :=
  if i.advances s.fl then s.checkAdvance i.length else pure ()

/-- The checks of an instruction that come before its advance: every operand index, then `FL`, then the written bits of
the registers it reads (R107 items 5 and 6). -/
def State.operandChecks (s : State) (i : Instr) : Except Trap Unit := do
  i.regOperands.forM s.checkIndex
  s.flagsCheckOf i
  (i.sourceOperands s.fl).forM fun b => s.checkWritten (operandReg b)

/-- All checks of an instruction, the advance last (R107 items 5 to 7). -/
def State.checks (s : State) (i : Instr) : Except Trap Unit := do
  s.operandChecks i
  s.advanceCheckOf i

/-- The state in which an instruction completes when no check fails (R120 to R163). -/
def State.complete (s : State) (i : Instr) : State :=
  match i with
  | .ldi a imm => (s.writeReg (operandReg a) imm).setPc (s.pcAfter i)
  | .hlt => s.halt.setPc 0
  | .prn a => (s.emitOut (s.readReg (operandReg a))).setPc (s.pcAfter i)
  | .mul a b =>
    (s.writeReg (operandReg a)
      (BitVec.ofNat 8 ((s.readReg (operandReg a)).toNat * (s.readReg (operandReg b)).toNat))).setPc (s.pcAfter i)
  | .push a => (s.push (s.readReg (operandReg a))).setPc (s.pcAfter i)
  | .pop a => (s.pop.2.writeReg (operandReg a) s.pop.1).setPc (s.pcAfter i)
  | .call a => (s.push s.returnAddress).setPc ((s.push s.returnAddress).readReg (operandReg a))
  | .ret => s.pop.2.setPc s.pop.1
  | .add a b =>
    (s.writeReg (operandReg a)
      (BitVec.ofNat 8 ((s.readReg (operandReg a)).toNat + (s.readReg (operandReg b)).toNat))).setPc (s.pcAfter i)
  | .cmp a b => (s.compare (s.readReg (operandReg a)) (s.readReg (operandReg b))).setPc (s.pcAfter i)
  | .jeq a => s.setPc (if s.condEq then s.readReg (operandReg a) else s.pcAfter i)
  | .jmp a => s.setPc (s.readReg (operandReg a))
  | .jne a => s.setPc (if s.condNe then s.readReg (operandReg a) else s.pcAfter i)

variable {s t : State} {i : Instr} {a b : Byte} {e : Trap}

/-! ## Every instruction is its checks and then its completion -/

/-- After its index check an operand stands for one register, whatever is done with it. -/
theorem State.selectReg_bind {α : Type} (f : RegIdx → Except Trap α) :
    (s.selectReg a >>= f) = (s.checkIndex a >>= fun _ => f (operandReg a)) := by
  obtain ⟨-, -, h⟩ | ⟨-, h⟩ := s.selectReg_cases a
  · simp [State.checkIndex, h]
  · simp [State.checkIndex, h]
    rfl

/-- After its range check an advance leads to one address. -/
theorem State.nextPc_bind {α : Type} (len : Nat) (f : Byte → Except Trap α) :
    (s.nextPc len >>= f) = (s.checkAdvance len >>= fun _ => f (BitVec.ofNat 8 (s.pc.toNat + len))) := by
  obtain ⟨-, -, h⟩ | ⟨-, h⟩ := s.nextPc_cases len <;> simp [State.checkAdvance, h]

theorem State.sourceReg_bind {α : Type} (f : RegIdx → Except Trap α) :
    (s.sourceReg a >>= f) =
      (s.checkIndex a >>= fun _ => s.checkWritten (operandReg a) >>= fun _ => f (operandReg a)) := by
  simp only [State.sourceReg, bind_assoc, pure_bind, State.selectReg_bind]

theorem State.sourcePair_bind {α : Type} (f : RegIdx × RegIdx → Except Trap α) :
    (s.sourcePair a b >>= f) =
      (s.checkIndex a >>= fun _ => s.checkIndex b >>= fun _ => s.checkWritten (operandReg a) >>= fun _ =>
        s.checkWritten (operandReg b) >>= fun _ => f (operandReg a, operandReg b)) := by
  simp only [State.sourcePair, bind_assoc, pure_bind, State.selectReg_bind]

/-- A conditional branch checks the written bit when it is taken and the advance when it is not. -/
theorem State.branchStep_eq (taken : Bool) :
    s.branchStep taken a = (s.checkIndex a >>= fun _ => s.checkFlags >>= fun _ =>
      (if taken then s.checkWritten (operandReg a) else s.checkAdvance 2) >>= fun _ =>
        pure (s.setPc (if taken then s.readReg (operandReg a) else BitVec.ofNat 8 (s.pc.toNat + 2)))) := by
  cases taken <;>
    simp only [State.branchStep, State.branchPc, State.selectReg_bind, State.nextPc_bind, bind_assoc, pure_bind,
      if_true, Bool.false_eq_true, if_false]

/-- The checks of an instruction that reads `FL` and is the branch `taken` or not. -/
theorem State.checks_of_branch {taken : Bool} (hreg : i.regOperands = [a]) (hflags : i.readsFlags = true)
    (hsource : i.sourceOperands s.fl = if taken then [a] else []) (hadv : i.advances s.fl = !taken) :
    s.checks i = (s.checkIndex a >>= fun _ => s.checkFlags >>= fun _ =>
      if taken then s.checkWritten (operandReg a) else s.checkAdvance i.length) := by
  cases taken <;>
    simp [-Except.pure_ok', State.checks, State.operandChecks, State.flagsCheckOf, State.advanceCheckOf, hreg, hflags,
      hsource, hadv]

theorem sourceOperands_jeq : (Instr.jeq a).sourceOperands s.fl = if s.condEq then [a] else [] := by
  simp only [Instr.sourceOperands, State.condEq_eq_true]

theorem sourceOperands_jne : (Instr.jne a).sourceOperands s.fl = if s.condNe then [a] else [] := by
  simp only [Instr.sourceOperands, State.condNe_eq_true]

theorem advances_jeq : (Instr.jeq a).advances s.fl = !s.condEq := rfl

theorem advances_jne : (Instr.jne a).advances s.fl = !s.condNe := by
  simp [Instr.advances, State.condNe, flGreater, flLess, bne]

/-- R107: an instruction makes its checks and completes, or takes the fault of the first that fails. The `_bind` lemmas
move what its meaning does with an operand or an address behind the check of it. -/
theorem exec_eq_checks (i : Instr) (s : State) :
    exec i s = s.attempt (s.checks i >>= fun _ => pure (s.complete i)) := by
  cases i with
  | hlt | ret => rfl
  | jeq a =>
    rw [State.checks_of_branch rfl rfl sourceOperands_jeq advances_jeq]
    exact congrArg s.attempt (by rw [State.branchStep_eq]; simp only [bind_assoc]; rfl)
  | jne a =>
    rw [State.checks_of_branch rfl rfl sourceOperands_jne advances_jne]
    exact congrArg s.attempt (by rw [State.branchStep_eq]; simp only [bind_assoc]; rfl)
  | ldi | pop | prn | push | call | jmp | mul | add | cmp =>
    simp [exec, execLdi, execPop, execPrn, execPush, execCall, execJmp, execMul, execAdd, execCmp, State.aluStep, alu8,
      State.selectReg_bind, State.sourceReg_bind, State.sourcePair_bind, State.nextPc_bind, State.checks,
      State.operandChecks, State.flagsCheckOf, State.advanceCheckOf, State.complete, State.pcAfter, Instr.regOperands,
      Instr.readsFlags, Instr.sourceOperands, Instr.advances, Instr.length, Instr.format, Format.length,
      Format.operandCount]

/-! ## When the checks pass, and how they fail -/

theorem forM_eq_ok_iff {l : List Byte} {f : Byte → Except Trap Unit} : l.forM f = .ok () ↔ ∀ b ∈ l, f b = .ok () := by
  induction l with
  | nil => simp
  | cons c l ih => simp_all [Except.bind_eq_ok', Unique.exists_iff, PUnit.default_eq_unit]

theorem exists_mem_of_forM_eq_error {l : List Byte} {f : Byte → Except Trap Unit} (h : l.forM f = .error e) :
    ∃ b ∈ l, f b = .error e := by
  by_contra hno
  push Not at hno
  induction l with
  | nil => cases h
  | cons c l ih =>
    obtain hc | ⟨-, -, hl⟩ := Except.bind_eq_error'.mp h
    · exact hno c List.mem_cons_self hc
    · exact ih hl fun b hb => hno b (List.mem_cons_of_mem c hb)

theorem State.checkIndex_eq_ok : s.checkIndex b = .ok () ↔ (s.config.regIndex = .fault → b.toNat < 8) := by
  simp [State.checkIndex, Except.bind_eq_ok', s.selectReg_eq_ok]

theorem State.checkIndex_eq_error :
    s.checkIndex b = .error e ↔ s.config.regIndex = .fault ∧ 8 ≤ b.toNat ∧ e = ⟨.badRegister, some b⟩ := by
  simp [State.checkIndex, Except.bind_eq_error', s.selectReg_eq_error]

theorem State.checkAdvance_eq_ok {len : Nat} : s.checkAdvance len = .ok () ↔ AdvanceFits s len := by
  simp [State.checkAdvance, Except.bind_eq_ok', s.nextPc_eq_ok]

theorem State.checkAdvance_eq_error {len : Nat} :
    s.checkAdvance len = .error e ↔
      s.config.addrOverflow = .fault ∧ 255 < s.pc.toNat + len ∧ e = ⟨.pcOutOfRange, none⟩ := by
  simp [State.checkAdvance, Except.bind_eq_error', s.nextPc_eq_error]

theorem State.checkFlags_eq_error :
    s.checkFlags = .error e ↔ s.config.flagsUnset = .fault ∧ s.fl = 0 ∧ e = ⟨.flagsUnset, none⟩ := by
  obtain ⟨hp, hz, h⟩ | ⟨hp, h⟩ := s.checkFlags_cases
  · simp [hp, hz, h, eq_comm]
  · simp only [h, reduceCtorEq, false_iff]
    exact fun ⟨hf, hz, _⟩ => hp hf hz

/-- The checks of the operands and of `FL` pass (R101, R27, R14). -/
theorem State.operandChecks_ok (hidx : IndexChecksPass i s) (hfl : FlagsCheckPasses i s)
    (hsource : SourceChecksPass i s) : s.operandChecks i = .ok () := by
  have h1 : i.regOperands.forM s.checkIndex = .ok () :=
    forM_eq_ok_iff.mpr fun b hb => State.checkIndex_eq_ok.mpr fun hp => hidx hp b hb
  have h2 : s.flagsCheckOf i = .ok () := by
    unfold State.flagsCheckOf
    split
    · exact State.checkFlags_ok (hfl ‹_›)
    · rfl
  have h3 : ((i.sourceOperands s.fl).forM fun b => s.checkWritten (operandReg b)) = .ok () :=
    forM_eq_ok_iff.mpr fun b hb => s.checkWritten_eq_ok.mpr fun hp => hsource hp b hb
  simp only [State.operandChecks, h1, h2, h3, Except.ok_bind']

theorem State.advanceCheckOf_ok (h : i.advances s.fl = true → AdvanceFits s i.length) :
    s.advanceCheckOf i = .ok () := by
  unfold State.advanceCheckOf
  split
  · exact State.checkAdvance_eq_ok.mpr (h ‹_›)
  · rfl

theorem State.operandChecks_error (h : s.operandChecks i = .error e) :
    (∃ b ∈ i.regOperands, s.checkIndex b = .error e) ∨ (i.readsFlags = true ∧ s.checkFlags = .error e) ∨
      ∃ b ∈ i.sourceOperands s.fl, s.checkWritten (operandReg b) = .error e := by
  obtain h | ⟨-, -, h | ⟨-, -, h⟩⟩ := by
    simpa only [State.operandChecks, Except.bind_eq_error'] using h
  · exact .inl (exists_mem_of_forM_eq_error h)
  · unfold State.flagsCheckOf at h
    split at h
    · exact .inr (.inl ⟨‹_›, h⟩)
    · cases h
  · exact .inr (.inr (exists_mem_of_forM_eq_error h))

theorem State.advanceCheckOf_error (h : s.advanceCheckOf i = .error e) :
    i.advances s.fl = true ∧ s.config.addrOverflow = .fault ∧ 255 < s.pc.toNat + i.length ∧
      e = ⟨.pcOutOfRange, none⟩ := by
  unfold State.advanceCheckOf at h
  split at h
  · exact ⟨‹_›, State.checkAdvance_eq_error.mp h⟩
  · cases h

/-- Only the check of the advance raises PC_OUT_OF_RANGE. -/
theorem State.cause_ne_pcOutOfRange_of_operandChecks (h : s.operandChecks i = .error e) : e.cause ≠ .pcOutOfRange := by
  obtain ⟨b, -, h⟩ | ⟨-, h⟩ | ⟨b, -, h⟩ := State.operandChecks_error h
  · simp [(State.checkIndex_eq_error.mp h).2.2]
  · simp [(State.checkFlags_eq_error.mp h).2.2]
  · simp [(s.checkWritten_eq_error.mp h).2.2]

/-! ## What an instruction completes with -/

theorem State.complete_status (hi : i ≠ .hlt) : (s.complete i).status = s.status := by
  cases i with
  | hlt => exact absurd rfl hi
  | _ => rfl

theorem State.complete_status_ne_fault (hs : s.status = .running) : (s.complete i).status ≠ .fault := by
  cases i with
  | hlt => simp [State.complete]
  | _ => exact fun h => by cases hs.symm.trans h

theorem State.complete_pc (hadv : i.advances s.fl = true) : (s.complete i).pc = s.pcAfter i := by
  cases i with
  | hlt | call | ret | jmp => cases hadv
  | jeq a =>
    rw [advances_jeq, Bool.not_eq_true'] at hadv
    simp [State.complete, hadv]
  | jne a =>
    rw [advances_jne, Bool.not_eq_true'] at hadv
    simp [State.complete, hadv]
  | _ => rfl

theorem ne_hlt_of_advances (hadv : i.advances s.fl = true) : i ≠ .hlt := by
  rintro rfl
  cases hadv

/-- An instruction whose checks all pass completes (R107). -/
theorem exec_of_checks (hop : s.operandChecks i = .ok ()) (hadv : i.advances s.fl = true → AdvanceFits s i.length) :
    exec i s = .next (s.complete i) := by
  simp [exec_eq_checks, State.checks, hop, State.advanceCheckOf_ok hadv]

/-- An instruction whose first failing check raises `e` takes that fault (R107). -/
theorem exec_of_operandChecks_error (h : s.operandChecks i = .error e) : exec i s = .next (s.raise e) := by
  simp [exec_eq_checks, State.checks, h]

theorem exec_of_advance_unfit (hop : s.operandChecks i = .ok ()) (hadv : i.advances s.fl = true)
    (hunfit : ¬ AdvanceFits s i.length) : exec i s = .next (s.raise ⟨.pcOutOfRange, none⟩) := by
  obtain ⟨hpolicy, hpast⟩ : s.config.addrOverflow = .fault ∧ 255 < s.pc.toNat + i.length := by
    simpa [AdvanceFits] using hunfit
  have hcheck : s.advanceCheckOf i = .error ⟨.pcOutOfRange, none⟩ :=
    (if_pos hadv).trans (State.checkAdvance_eq_error.mpr ⟨hpolicy, hpast, rfl⟩)
  simp [exec_eq_checks, State.checks, hop, hcheck]

/-- An instruction that takes a PC_OUT_OF_RANGE fault would have advanced past 255 (R103). -/
theorem exec_pcOutOfRange (hs : s.status = .running) (h : exec i s = .next t) (hfault : t.status = .fault)
    (hcause : t.faultCause = .pcOutOfRange) : s.config.addrOverflow = .fault ∧ 255 < s.pc.toNat + i.length := by
  rw [exec_eq_checks, State.attempt_eq_next] at h
  obtain h | ⟨e, h, rfl⟩ := h
  · obtain ⟨-, -, hdone⟩ := Except.bind_eq_ok'.mp h
    obtain rfl := Except.ok.inj hdone
    exact absurd hfault (State.complete_status_ne_fault hs)
  · obtain h | ⟨-, -, h⟩ := Except.bind_eq_error'.mp h
    · obtain h | ⟨-, -, h⟩ := Except.bind_eq_error'.mp h
      · exact absurd hcause (State.cause_ne_pcOutOfRange_of_operandChecks h)
      · obtain ⟨-, hpolicy, hpast, -⟩ := State.advanceCheckOf_error h
        exact ⟨hpolicy, hpast⟩
    · cases h

end Sys2Proof.Machine

/-! # The engine: fetch, decode and dispatch (R97 to R107) -/

namespace Sys2Proof.Machine

variable {s t : State} {i : Instr} {e : Trap}

/-! ## The three ways of a step -/

theorem step_of_fetch_error (hs : s.status = .running) (hpolicy : s.config.addrOverflow = .fault)
    (hpc : 254 ≤ s.pc.toNat) : step s = .next (s.raise ⟨.fetchOutOfRange, none⟩) := by
  simp [step, hs, State.fetch, hpolicy, hpc]

theorem State.fetch_eq_windowAt (hfits : FetchFits s) : s.fetch = .ok (windowAt s) := by
  rw [State.fetch_of_fits hfits, s.fetchWindow_eq_windowAt]

theorem step_of_unknownOpcode (hs : s.status = .running) (hfits : FetchFits s)
    (hop : s.memRead s.pc ∉ knownOpcodes) : step s = s.unknownOpcode (s.memRead s.pc) := by
  have hdecode := (decode_error_iff (windowAt s)).mpr hop
  simp only [step, hs, State.fetch_eq_windowAt hfits, hdecode]
  rfl

theorem step_of_decode (hs : s.status = .running) (hfits : FetchFits s) (hi : decode (windowAt s) = .ok i) :
    step s = exec i s := by
  simp only [step, hs, State.fetch_eq_windowAt hfits, hi]

/-- Settles O5: the window that the step fetches is the one at `pc`. -/
theorem stepRunsTheDecodedInstruction : Obligations.StepRunsTheDecodedInstruction :=
  fun _ _ => step_of_decode

/-- Settles O6: the range check fails under `fault`, and there is none under `wrap`. -/
theorem fetchRangeCheck : Obligations.FetchRangeCheck := by
  refine fun s hs => ⟨step_of_fetch_error hs, fun hwrap => State.fetch_eq_windowAt fun hfault => ?_⟩
  cases hwrap.symm.trans hfault

/-- A running machine has a step, whatever it fetches. -/
theorem exists_step_of_running (hs : s.status = .running) : ∃ t, step s = .next t := by
  by_cases hfits : FetchFits s
  · obtain ⟨_, -, -, hi⟩ | ⟨-, herror⟩ := decode_cases (windowAt s)
    · rw [step_of_decode hs hfits hi]
      exact exec_next _ s
    · rw [step_of_unknownOpcode hs hfits ((decode_error_iff _).mp herror)]
      obtain ⟨-, h⟩ | ⟨-, h⟩ := s.unknownOpcode_cases (s.memRead s.pc)
      · exact ⟨_, h⟩
      · exact ⟨_, h⟩
  · obtain ⟨hpolicy, hpc⟩ : s.config.addrOverflow = .fault ∧ 254 ≤ s.pc.toNat := by
      simpa [FetchFits] using hfits
    exact ⟨_, step_of_fetch_error hs hpolicy hpc⟩

/-- Settles O8: a state with a step is RUNNING, and each of the three ways of a RUNNING state answers. -/
theorem stepExistsExactlyWhileRunning : Obligations.StepExistsExactlyWhileRunning :=
  fun _ => ⟨fun ⟨_, h⟩ => (step_effect h).1, exists_step_of_running⟩

/-! ## An unknown opcode -/

section Stall

variable (hs : s.status = .running) (hfits : FetchFits s) (hop : s.memRead s.pc ∉ knownOpcodes)
  (hpolicy : s.config.unknownOpcode = .stall)
include hs hfits hop hpolicy

theorem step_of_stall : step s = .next (s.emitDiag (s.memRead s.pc)) := by
  rw [step_of_unknownOpcode hs hfits hop, State.unknownOpcode, hpolicy]

/-- A stalled machine only reports: its next state is one that stalls at the same opcode. -/
theorem run_of_stall (n : Nat) :
    core.run n s = .next { s with diag := s.diag ++ List.replicate n ⟨s.memRead s.pc, s.pc⟩ } := by
  induction n generalizing s with
  | zero => simp [Host.Core.run]
  | succ n ih =>
    have hstep : core.step s = .next (s.emitDiag (s.memRead s.pc)) := step_of_stall hs hfits hop hpolicy
    have hrest := ih (s := s.emitDiag (s.memRead s.pc)) hs hfits hop hpolicy
    simp only [Host.Core.run, hstep]
    rw [hrest]
    simp [List.replicate_succ]

end Stall

/-- Settles O7: the fault of the policy, or the report, repeated by induction on the number of steps. -/
theorem unknownOpcodeFaultsOrStallsForEver : Obligations.UnknownOpcodeFaultsOrStallsForEver := by
  refine fun s hs hfits hop => ⟨fun hpolicy => ?_, fun hpolicy =>
    ⟨step_of_stall hs hfits hop hpolicy, run_of_stall hs hfits hop hpolicy⟩⟩
  rw [step_of_unknownOpcode hs hfits hop, State.unknownOpcode, hpolicy]
  rfl

/-! ## The checks of the decoded instruction -/

/-- Settles O11: the decoded instruction passes its checks, so it completes. -/
theorem stepIsFaultFreeWhenTheChecksPass : Obligations.StepIsFaultFreeWhenTheChecksPass := by
  intro s i hs hfits hi hidx hfl hsource hadv
  have hop := State.operandChecks_ok hidx hfl hsource
  exact ⟨s.complete i, (step_of_decode hs hfits hi).trans (exec_of_checks hop hadv),
    State.complete_status_ne_fault hs⟩

theorem length_le_three (i : Instr) : i.length ≤ 3 := by
  unfold Instr.length
  cases i.format <;> decide

/-- A step that takes a PC_OUT_OF_RANGE fault runs a three-byte instruction at 253 (R102, R103). -/
theorem step_pcOutOfRange (h : step s = .next t) (hfault : t.status = .fault) (hcause : t.faultCause = .pcOutOfRange) :
    s.pc.toNat = 253 ∧ ∃ i, decode (windowAt s) = .ok i ∧ i.length = 3 := by
  obtain ⟨hs, h⟩ := step_cases h
  rw [s.fetchWindow_eq_windowAt] at h
  obtain ⟨-, -, rfl⟩ | ⟨hfits, ⟨-, h⟩ | ⟨i, hi, h⟩⟩ := h
  · cases hcause
  · obtain ⟨-, h'⟩ | ⟨-, h'⟩ := s.unknownOpcode_cases (windowAt s).op
    · obtain rfl := Host.Outcome.next.inj (h'.symm.trans h)
      cases hcause
    · obtain rfl := Host.Outcome.next.inj (h'.symm.trans h)
      cases hs.symm.trans hfault
  · obtain ⟨hpolicy, hpast⟩ := exec_pcOutOfRange hs h hfault hcause
    have hpc := hfits hpolicy
    have hlen := length_le_three i
    exact ⟨by omega, i, hi, by omega⟩

/-- Settles O14: where the other checks pass, the check of the advance decides; and a step fetches at 253 at most. -/
theorem nonRedirectingInstructionsAdvance : Obligations.NonRedirectingInstructionsAdvance := by
  refine ⟨fun i s hadv hidx hfl hsource => ?_, fun s t => step_pcOutOfRange⟩
  have hop := State.operandChecks_ok hidx hfl hsource
  refine ⟨fun hfits => ⟨s.complete i, exec_of_checks hop fun _ => hfits, ?_, ?_⟩, exec_of_advance_unfit hop hadv⟩
  · exact State.complete_status (ne_hlt_of_advances hadv)
  · rw [State.complete_pc hadv, State.pcAfter, BitVec.toNat_ofNat]

/-! ## The register index -/

/-- The index checks run through the operands in order and fail at the first of 8 or more (R101). -/
theorem forM_checkIndex_of_find (hpolicy : s.config.regIndex = .fault) {l : List Byte} {r : Byte}
    (h : l.find? (fun b => decide (8 ≤ b.toNat)) = some r) :
    l.forM s.checkIndex = .error ⟨.badRegister, some r⟩ := by
  induction l with
  | nil => cases h
  | cons c l ih =>
    by_cases hc : 8 ≤ c.toNat
    · obtain rfl : c = r := by simpa [hc] using h
      simp [State.checkIndex_eq_error.mpr ⟨hpolicy, hc, rfl⟩]
    · have hrest := ih (by simpa [hc] using h)
      have hok : s.checkIndex c = .ok () := State.checkIndex_eq_ok.mpr fun _ => by omega
      simpa [hok] using hrest

theorem operandChecks_of_bad_index (hpolicy : s.config.regIndex = .fault) {r : Byte}
    (h : i.regOperands.find? (fun b => decide (8 ≤ b.toNat)) = some r) :
    s.operandChecks i = .error ⟨.badRegister, some r⟩ := by
  rw [State.operandChecks, forM_checkIndex_of_find hpolicy h, Except.error_bind']

section Low3

variable (hpolicy : s.config.regIndex = .low3) (a b : Byte)
include hpolicy

/-- Under `low3` the byte of an operand's bits 2..0 selects the register that the operand selects. -/
theorem State.selectReg_low3Byte : s.selectReg (BitVec.ofNat 8 (a.toNat % 8)) = s.selectReg a := by
  have hok : ∀ c, s.selectReg c = .ok (low3 c) := fun c => s.selectReg_eq_ok.mpr ⟨by simp [hpolicy], rfl⟩
  rw [hok, hok]
  congr 1
  ext
  simp

theorem State.sourceReg_low3Byte : s.sourceReg (BitVec.ofNat 8 (a.toNat % 8)) = s.sourceReg a := by
  simp only [State.sourceReg, State.selectReg_low3Byte hpolicy]

theorem State.sourcePair_low3Byte :
    s.sourcePair (BitVec.ofNat 8 (a.toNat % 8)) (BitVec.ofNat 8 (b.toNat % 8)) = s.sourcePair a b := by
  simp only [State.sourcePair, State.selectReg_low3Byte hpolicy]

theorem State.branchStep_low3Byte (taken : Bool) :
    s.branchStep taken (BitVec.ofNat 8 (a.toNat % 8)) = s.branchStep taken a := by
  simp only [State.branchStep, State.selectReg_low3Byte hpolicy]

theorem exec_low3Operands (i : Instr) : exec i s = exec i.low3Operands s := by
  cases i with
  | hlt | ret => rfl
  | ldi | pop => simp only [exec, Instr.low3Operands, execLdi, execPop, State.selectReg_low3Byte hpolicy]
  | prn | push | call | jmp =>
    simp only [exec, Instr.low3Operands, execPrn, execPush, execCall, execJmp, State.sourceReg_low3Byte hpolicy]
  | mul | add | cmp =>
    simp only [exec, Instr.low3Operands, execMul, execAdd, execCmp, State.aluStep, State.sourcePair_low3Byte hpolicy]
  | jeq | jne => simp only [exec, Instr.low3Operands, execJeq, execJne, State.branchStep_low3Byte hpolicy]

end Low3

/-- Settles O12: the index checks come first, and under `low3` none fails. -/
theorem registerIndexCheck : Obligations.RegisterIndexCheck :=
  fun i _ => ⟨fun hpolicy _ hfind => exec_of_operandChecks_error (operandChecks_of_bad_index hpolicy hfind),
    fun hpolicy => exec_low3Operands hpolicy i⟩

end Sys2Proof.Machine

/-! # The ALU and the flags register (R93, R94, R110, R186) -/

namespace Sys2Proof.Machine

variable {s t : State} {e : Trap} {a b : Byte} {ra rb : RegIdx}

theorem CheckFails.cause_ne_aluUnsupported (h : CheckFails s e) : e.cause ≠ .aluUnsupported := by
  cases h with
  | index h => simp [(s.selectReg_eq_error.mp h).2.2]
  | flags h => simp [(State.checkFlags_eq_error.mp h).2.2]
  | source h => simp [(s.checkWritten_eq_error.mp h).2.2]
  | advance _ h => simp [(s.nextPc_eq_error.mp h).2.2]

theorem StepTrap.cause_ne_aluUnsupported (h : StepTrap s e) : e.cause ≠ .aluUnsupported := by
  cases h with
  | fetch | opcode => simp
  | check _ h => exact h.cause_ne_aluUnsupported

/-- Settles O42: the two operations by definition, and no trap of a step is the ALU's. -/
theorem aluIsExactModulo256 : Obligations.AluIsExactModulo256 := by
  refine ⟨fun x y => ⟨_, _, rfl, BitVec.toNat_ofNat .., rfl, BitVec.toNat_ofNat .., rfl⟩, fun s t hstep hfault => ?_⟩
  obtain ⟨hs, h⟩ := step_effect hstep
  cases h with
  | trap he ht => simpa [ht] using he.cause_ne_aluUnsupported
  | stall _ _ ht => simp [ht, hs] at hfault
  | instr _ _ heff => exact absurd hfault (heff.status_ne_fault hs)

/-- Settles O45: the three orders of two bytes, and the two tests of `FL`. -/
theorem flagsRegisterCompareAndConditions : Obligations.FlagsRegisterCompareAndConditions := by
  refine fun s x y => ⟨fun heq => if_pos heq, fun hgt => ?_, fun hlt => ?_, State.condEq_eq_true, State.condNe_eq_true⟩
  · exact (if_neg (by omega)).trans (if_pos hgt)
  · exact (if_neg (by omega)).trans (if_neg (by omega))

/-! ## ADD and MUL twice, and with their operands exchanged -/

theorem advanceFits_mono {m n : Nat} (hmn : m ≤ n) (h : AdvanceFits s n) : AdvanceFits s m :=
  fun hpolicy => (Nat.add_le_add_left hmn _).trans (h hpolicy)

section AluTwice

variable {op : AluOp} {f : Byte → Byte → Byte} (hop : ∀ x y, alu8 op x y = .ok (f x y))
  (ha : Selects s.config a ra) (hb : Selects s.config b rb) (hra : Readable s ra) (hrb : Readable s rb)
include hop ha hb hra hrb

/-- The ALU step where its checks pass (R93). -/
theorem State.aluStep_of_checks (hadv : AdvanceFits s 3) :
    s.attempt (s.aluStep op a b) =
      .next ((s.writeReg ra (f (s.readReg ra) (s.readReg rb))).setPc (BitVec.ofNat 8 (s.pc.toNat + 3))) := by
  have hsource := State.sourcePair_of_selects ha hb hra hrb
  have hnext := s.nextPc_eq_ok.mpr ⟨hadv, rfl⟩
  simp [State.aluStep, hop, hsource, hnext]

/-- The second ALU step reads the first one's result and the other operand as it was. -/
theorem State.aluStep_twice (hne : ra ≠ rb) (hadv : AdvanceFits s 6) :
    ∃ t u, s.attempt (s.aluStep op a b) = .next t ∧ t.attempt (t.aluStep op a b) = .next u ∧
      u.readReg ra = f (f (s.readReg ra) (s.readReg rb)) (s.readReg rb) := by
  have hfirst : AdvanceFits s 3 := advanceFits_mono (by decide) hadv
  have hsecond := advanceFits_setPc (s := s.writeReg ra (f (s.readReg ra) (s.readReg rb))) (m := 3) (n := 3) hadv
  refine ⟨_, _, State.aluStep_of_checks hop ha hb hra hrb hfirst,
    State.aluStep_of_checks hop ha hb (fun _ => ?_) (fun hunwritten => ?_) hsecond, ?_⟩
  · simp
  · rw [State.isWritten_setPc, State.isWritten_writeReg_ne s hne.symm]
    exact hrb hunwritten
  · simp [State.readReg_writeReg_ne s hne.symm]

/-- A commutative operation gives one value in either order, each time in the first operand's register. -/
theorem State.aluStep_exchanged (hcomm : ∀ x y, f x y = f y x) (hadv : AdvanceFits s 3) :
    ∃ t u, s.attempt (s.aluStep op a b) = .next t ∧ s.attempt (s.aluStep op b a) = .next u ∧
      t.readReg ra = u.readReg rb := by
  refine ⟨_, _, State.aluStep_of_checks hop ha hb hra hrb hadv, State.aluStep_of_checks hop hb ha hrb hra hadv, ?_⟩
  simp [hcomm (s.readReg ra)]

end AluTwice

/-- The byte of the sum modulo 256 (R131). -/
def sumByte (x y : Byte) : Byte := BitVec.ofNat 8 (x.toNat + y.toNat)

/-- The byte of the product modulo 256 (R132). -/
def productByte (x y : Byte) : Byte := BitVec.ofNat 8 (x.toNat * y.toNat)

theorem alu8_add_eq (x y : Byte) : alu8 .add x y = .ok (sumByte x y) := rfl

theorem alu8_mul_eq (x y : Byte) : alu8 .mul x y = .ok (productByte x y) := rfl

theorem toNat_sumByte_twice (x y : Byte) : (sumByte (sumByte x y) y).toNat = (x.toNat + 2 * y.toNat) % 256 := by
  simp only [sumByte, BitVec.toNat_ofNat]
  omega

theorem toNat_productByte_twice (x y : Byte) :
    (productByte (productByte x y) y).toNat = (x.toNat * y.toNat * y.toNat) % 256 := by
  simp only [productByte, BitVec.toNat_ofNat]
  exact Nat.mod_mul_mod ..

/-- Settles O48: ADD and MUL are the ALU step of one commutative operation each. -/
theorem addAndMulAccumulateAndCommute : Obligations.AddAndMulAccumulateAndCommute := by
  intro s a b ra rb ha hb hne hra hrb hadv
  have hone : AdvanceFits s 3 := advanceFits_mono (by decide) hadv
  obtain ⟨t, u, ht, hu, hsum⟩ := State.aluStep_twice alu8_add_eq ha hb hra hrb hne hadv
  obtain ⟨t', u', ht', hu', hproduct⟩ := State.aluStep_twice alu8_mul_eq ha hb hra hrb hne hadv
  refine ⟨⟨t, u, ht, hu, ?_⟩, ⟨t', u', ht', hu', ?_⟩, ?_, ?_⟩
  · rw [hsum, toNat_sumByte_twice]
  · rw [hproduct, toNat_productByte_twice]
  · exact State.aluStep_exchanged alu8_add_eq ha hb hra hrb (fun x y => by simp only [sumByte, Nat.add_comm]) hone
  · exact State.aluStep_exchanged alu8_mul_eq ha hb hra hrb (fun x y => by simp only [productByte, Nat.mul_comm]) hone

end Sys2Proof.Machine

/-! # A new launch (R91, R214) -/

namespace Sys2Proof.Machine

/-- Settles O53, status by status. -/
theorem newLaunchResetsEverything : Obligations.NewLaunchResetsEverything := by
  intro s c image
  unfold relaunch
  cases s.status with
  | running => exact ⟨fun _ => rfl, fun h => absurd rfl h⟩
  | halted | fault => exact ⟨nofun, fun _ => rfl⟩

end Sys2Proof.Machine

/-! # The example words of the spec (R77, R120 to R122, R131, R151) -/

namespace Sys2Proof

/-- Settles O4: the known words are encodings, decoded by the round trip, and the other two opcodes have no row. -/
theorem exampleWordsDecodeAsTheSpecSays : Obligations.ExampleWordsDecodeAsTheSpecSays := by
  have hround := decodeOfEncodeIsTheInstruction
  have hunknown : ∀ w : Window, w.op ∉ knownOpcodes → decode w = .error (.unknownOpcode w.op) :=
    fun w => (Machine.decode_error_iff w).mpr
  exact ⟨hround (.ldi 0 8) [], hround (.prn 0) [1], hround .hlt [0, 0], hround (.add 0 1) [], hround .ret [0xFF, 0xFF],
    hunknown _ (by decide), hunknown _ (by decide)⟩

end Sys2Proof

/-! # What LDI, PRN and HLT complete with (R60, R120 to R122) -/

namespace Sys2Proof.Machine

variable {s : State} {a imm : Byte} {r : RegIdx}

/-- LDI where its checks pass (R120). -/
theorem exec_ldi_of_checks (hsel : Selects s.config a r) (hadv : AdvanceFits s 3) :
    exec (.ldi a imm) s = .next ((s.writeReg r imm).setPc (BitVec.ofNat 8 (s.pc.toNat + 3))) := by
  have hreg := State.selectReg_eq_ok_iff_selects.mpr hsel
  have hnext := s.nextPc_eq_ok.mpr ⟨hadv, rfl⟩
  simp [exec, execLdi, hreg, hnext]

/-- PRN where its checks pass (R121). -/
theorem exec_prn_of_checks (hsel : Selects s.config a r) (hread : Readable s r) (hadv : AdvanceFits s 2) :
    exec (.prn a) s = .next ((s.emitOut (s.readReg r)).setPc (BitVec.ofNat 8 (s.pc.toNat + 2))) := by
  have hsource := State.sourceReg_eq_ok_iff_selects.mpr ⟨hsel, hread⟩
  have hnext := s.nextPc_eq_ok.mpr ⟨hadv, rfl⟩
  simp [exec, execPrn, hsource, hnext]

/-- Settles O15: the register write, then the advance. -/
theorem ldiLoadsTheImmediate : Obligations.LdiLoadsTheImmediate := by
  intro s a imm r hsel hadv
  refine ⟨_, exec_ldi_of_checks hsel hadv, ?value, ?written, BitVec.toNat_ofNat .., rfl⟩
  case value => rw [State.readReg_setPc, State.readReg_writeReg_self]
  case written => rw [State.isWritten_setPc, State.isWritten_writeReg_self]

/-- Settles O16: the completed state is the one with the byte appended and `pc` moved on. -/
theorem prnEmitsTheRegister : Obligations.PrnEmitsTheRegister :=
  fun _ _ _ hsel hread hadv => exec_prn_of_checks hsel hread hadv

/-- Settles O17: HLT has no check, and its two updates are of the status and of `pc`. -/
theorem hltHalts : Obligations.HltHalts :=
  fun _ => rfl

end Sys2Proof.Machine

/-! # What ADD and MUL complete with (R131, R132) -/

namespace Sys2Proof.Machine

variable {s : State} {a b : Byte} {ra rb : RegIdx}

/-- An operation that the ALU has (R93) leaves its result in the first register, where the checks pass. -/
theorem State.aluStep_stores {op : AluOp} {f : Byte → Byte → Byte} (hop : ∀ x y, alu8 op x y = .ok (f x y))
    (ha : Selects s.config a ra) (hb : Selects s.config b rb) (hra : Readable s ra) (hrb : Readable s rb)
    (hadv : AdvanceFits s 3) :
    ∃ t, s.attempt (s.aluStep op a b) = .next t ∧ t.readReg ra = f (s.readReg ra) (s.readReg rb) ∧
      t.isWritten ra = true ∧ t.fl = s.fl ∧ t.pc.toNat = (s.pc.toNat + 3) % 256 ∧ t.status = s.status := by
  refine ⟨_, State.aluStep_of_checks hop ha hb hra hrb hadv, ?value, ?written, rfl, BitVec.toNat_ofNat .., rfl⟩
  case value => rw [State.readReg_setPc, State.readReg_writeReg_self]
  case written => rw [State.isWritten_setPc, State.isWritten_writeReg_self]

/-- Settles O18: ADD is the ALU step whose result is the byte of the sum. -/
theorem addStoresTheSumModulo256 : Obligations.AddStoresTheSumModulo256 := by
  intro s a b ra rb ha hb hra hrb hadv
  obtain ⟨t, ht, hvalue, hrest⟩ := State.aluStep_stores alu8_add_eq ha hb hra hrb hadv
  refine ⟨t, ht, ?_, hrest⟩
  rw [hvalue, sumByte, BitVec.toNat_ofNat]

/-- Settles O19: MUL is the ALU step whose result is the byte of the product. -/
theorem mulStoresTheProductModulo256 : Obligations.MulStoresTheProductModulo256 := by
  intro s a b ra rb ha hb hra hrb hadv
  obtain ⟨t, ht, hvalue, hrest⟩ := State.aluStep_stores alu8_mul_eq ha hb hra hrb hadv
  refine ⟨t, ht, ?_, hrest⟩
  rw [hvalue, productByte, BitVec.toNat_ofNat]

end Sys2Proof.Machine

/-! # The stack: its primitives, PUSH, POP and last in, first out (R140 to R144) -/

namespace Sys2Proof.Machine

variable {s : State} {a b : Byte} {r : RegIdx}

/-! ## The primitives -/

/-- Incrementing SP modulo 256 (R141), in the arithmetic of the statements. -/
theorem toNat_add_one (x : Byte) : (x + 1).toNat = (x.toNat + 1) % 256 :=
  BitVec.toNat_add x 1

@[simp] theorem State.sp_pop (s : State) : s.pop.2.sp = s.sp + 1 :=
  State.sp_writeReg_spIdx s (s.sp + 1)

@[simp] theorem State.memRead_pop (s : State) (b : Byte) : s.pop.2.memRead b = s.memRead b := rfl

theorem State.readReg_pop_ne (h : r ≠ spIdx) : s.pop.2.readReg r = s.readReg r :=
  State.readReg_writeReg_ne s h (s.sp + 1)

@[simp] theorem State.isWritten_pop_spIdx (s : State) : s.pop.2.isWritten spIdx = true :=
  State.isWritten_writeReg_self s spIdx (s.sp + 1)

/-- The pushed byte stands in the cell at the new SP (R140). -/
@[simp] theorem State.memRead_push_sp (s : State) (v : Byte) : (s.push v).memRead (s.sp - 1) = v := by
  rw [State.memRead_push, if_pos rfl]

/-- Settles O43: a push is one write of SP and one store, at the SP just written. -/
theorem pushPrimitive : Obligations.PushPrimitive := by
  intro s v
  rw [State.sp_push]
  refine ⟨toNat_sub_one s.sp, s.memRead_push_sp v, ?wrap, fun r hr => s.readReg_push_ne hr v, ?frame⟩
  case wrap =>
    intro hzero
    rw [hzero]
    rfl
  case frame =>
    intro b hb
    rw [State.memRead_push, if_neg hb]

/-- Settles O44: a pop is one read of memory and one write of SP. -/
theorem popPrimitive : Obligations.PopPrimitive := by
  intro s
  rw [State.sp_pop]
  refine ⟨s.pop_fst, toNat_add_one s.sp, ?wrap, fun r hr => State.readReg_pop_ne hr, s.memRead_pop⟩
  case wrap =>
    intro hlast
    rw [hlast]
    rfl

/-! ## The instructions -/

/-- Settles O20: PUSH pushes what the register held at the start of the step, then advances. -/
theorem pushStoresTheRegister : Obligations.PushStoresTheRegister := by
  intro s a r hsel hread hadv
  refine ⟨_, exec_push_of_checks hsel hread hadv, ?sp, ?written, ?cell, BitVec.toNat_ofNat .., rfl⟩
  case sp => rw [State.sp_setPc, State.sp_push, toNat_sub_one]
  case written => rw [State.isWritten_setPc, State.isWritten_push_spIdx]
  case cell => rw [State.memRead_setPc, State.sp_setPc, State.sp_push, State.memRead_push_sp]

/-- Settles O21: POP's register write comes after the pop's write of SP, and replaces it when the register is R7. -/
theorem popLoadsTheRegister : Obligations.PopLoadsTheRegister := by
  intro s a r hsel hadv
  refine ⟨_, exec_pop_of_checks hsel hadv, ?value, ?written, ?sp, ?spWritten, BitVec.toNat_ofNat .., rfl⟩
  case value => rw [State.readReg_setPc, State.readReg_writeReg_self, State.pop_fst]
  case written => rw [State.isWritten_setPc, State.isWritten_writeReg_self]
  case sp =>
    intro hr
    rw [State.sp_setPc, State.sp_writeReg_ne _ hr, State.sp_pop, toNat_add_one]
  case spWritten => rw [State.isWritten_setPc, State.isWritten_writeReg, State.isWritten_pop_spIdx, Bool.or_true]

/-! ## Last in, first out -/

/-- Pushes write the cells below SP, the nearest first, so a cell that is further below SP than there are bytes is as
before. `s.sp - 1 - b` is how many pushes come before the one that reaches `b`, and 255 when `b` is SP itself. -/
theorem memRead_pushAll {vs : List Byte} (h : vs.length ≤ (s.sp - 1 - b).toNat) :
    (pushAll s vs).memRead b = s.memRead b := by
  induction vs generalizing s with
  | nil => rfl
  | cons v vs ih =>
    rw [List.length_cons] at h
    have hne : b ≠ s.sp - 1 := by
      rintro rfl
      simp at h
    have hrest : vs.length ≤ ((s.push v).sp - 1 - b).toNat := by
      rw [State.sp_push]
      bv_omega
    rw [pushAll, ih hrest, State.memRead_push, if_neg hne]

/-- Fewer than 256 pushes leave the byte that was on top of the stack before them. -/
theorem memRead_sp_pushAll {vs : List Byte} (h : vs.length < 256) : (pushAll s vs).memRead s.sp = s.memRead s.sp := by
  refine memRead_pushAll ?_
  bv_omega

theorem memRead_popAll (s : State) (n : Nat) : (popAll s n).2.memRead b = s.memRead b := by
  induction n generalizing s with
  | zero => rfl
  | succ n ih => rw [popAll, ih, State.memRead_pop]

/-- The last of `n + 1` pops comes after the first `n`. -/
theorem popAll_succ_last (s : State) (n : Nat) :
    popAll s (n + 1) = ((popAll s n).1 ++ [(popAll s n).2.pop.1], (popAll s n).2.pop.2) := by
  induction n generalizing s with
  | zero => rfl
  | succ n ih => rw [popAll, ih, popAll, List.cons_append]

/-- Settles O46, by induction on the bytes: the pops of the later bytes give them back and leave SP where the first push
put it, and the byte of the first push is still in that cell. -/
theorem stackIsLastInFirstOut : Obligations.StackIsLastInFirstOut := by
  intro s vs hlen
  induction vs generalizing s with
  | nil => exact ⟨rfl, rfl⟩
  | cons v vs ih =>
    rw [List.length_cons] at hlen
    obtain ⟨hbytes, hsp⟩ := ih (s.push v) (by omega)
    have hcell := memRead_sp_pushAll (s := s.push v) hlen
    rw [State.sp_push] at hsp hcell
    rw [List.length_cons, pushAll, popAll_succ_last, hbytes, List.reverse_cons]
    refine ⟨?bytes, ?sp⟩
    case bytes => rw [State.pop_fst, hsp, memRead_popAll, hcell, State.memRead_push_sp]
    case sp => rw [State.sp_pop, hsp, BitVec.sub_add_cancel]

end Sys2Proof.Machine

/-! # The subroutine: CALL, RET and the return to the call site (R150 to R152) -/

namespace Sys2Proof.Machine

variable {s t : State} {a : Byte} {r : RegIdx}

/-- RET checks nothing: it pops, and goes to the popped byte (R151). -/
theorem exec_ret (s : State) : exec .ret s = .next (s.pop.2.setPc s.pop.1) := rfl

/-- The return address (R150), in the arithmetic of the statements. -/
theorem State.toNat_returnAddress (s : State) : s.returnAddress.toNat = (s.pc.toNat + 2) % 256 :=
  BitVec.toNat_add s.pc 2

/-- What CALL leaves for the RET that pairs with it (R150, R152), whatever its target register is. -/
theorem exec_call_sp_and_cell (hsel : Selects s.config a r) (hread : Readable s r)
    (hcall : exec (.call a) s = .next t) :
    t.sp = s.sp - 1 ∧ t.memRead t.sp = s.returnAddress := by
  obtain rfl := Host.Outcome.next.inj ((exec_call_of_checks hsel hread).symm.trans hcall)
  refine ⟨?sp, ?cell⟩
  case sp => rw [State.sp_setPc, State.sp_push]
  case cell => rw [State.memRead_setPc, State.sp_setPc, State.sp_push, State.memRead_push_sp]

/-- Settles O22: CALL pushes its return address and only then reads its target, so R7 gives the decremented SP and every
other register its value from before the push. -/
theorem callPushesTheReturnAddressAndJumps : Obligations.CallPushesTheReturnAddressAndJumps := by
  intro s a r hsel hread
  have hcall := exec_call_of_checks hsel hread
  obtain ⟨hsp, hcell⟩ := exec_call_sp_and_cell hsel hread hcall
  refine ⟨_, hcall, ?sp, ?written, ?cell, fun hr => s.readReg_push_ne hr s.returnAddress, ?targetSp, rfl⟩
  case sp => rw [hsp, toNat_sub_one]
  case written => rw [State.isWritten_setPc, State.isWritten_push_spIdx]
  case cell => rw [hcell, State.toNat_returnAddress]
  case targetSp =>
    rintro rfl
    rw [hsp, State.setPc_pc, State.readReg_push_spIdx]

/-- Settles O23: RET is a pop whose byte goes to `pc`. -/
theorem retPopsThePc : Obligations.RetPopsThePc := by
  intro s
  refine ⟨_, exec_ret s, s.pop_fst, ?sp, ?written, rfl⟩
  case sp => rw [State.sp_setPc, State.sp_pop, toNat_add_one]
  case written => rw [State.isWritten_setPc, State.isWritten_pop_spIdx]

/-- Settles O47: RET depends on SP and the cell there alone, and both are as CALL left them. -/
theorem callThenRetResumesAfterTheCall : Obligations.CallThenRetResumesAfterTheCall := by
  intro s t u a r hsel hread hcall husp hucell
  obtain ⟨hsp, hcell⟩ := exec_call_sp_and_cell hsel hread hcall
  refine ⟨_, exec_ret u, ?pc, ?sp⟩
  case pc => rw [State.setPc_pc, State.pop_fst, husp, hucell, hcell, State.toNat_returnAddress]
  case sp => rw [State.sp_setPc, State.sp_pop, husp, hsp, BitVec.sub_add_cancel]

end Sys2Proof.Machine

/-! # The comparison and the branches: CMP, JMP, JEQ and JNE (R27, R160 to R165) -/

namespace Sys2Proof.Machine

variable {s : State} {a b : Byte} {r ra rb : RegIdx} {taken : Bool}

/-! ## CMP and JMP -/

/-- CMP where its checks pass (R160). -/
theorem exec_cmp_of_checks (ha : Selects s.config a ra) (hb : Selects s.config b rb) (hra : Readable s ra)
    (hrb : Readable s rb) (hadv : AdvanceFits s 3) :
    exec (.cmp a b) s =
      .next ((s.compare (s.readReg ra) (s.readReg rb)).setPc (BitVec.ofNat 8 (s.pc.toNat + 3))) := by
  have hsource := State.sourcePair_of_selects ha hb hra hrb
  have hnext := s.nextPc_eq_ok.mpr ⟨hadv, rfl⟩
  simp [exec, execCmp, hsource, hnext]

/-- JMP where its checks pass (R162). -/
theorem exec_jmp_of_checks (hsel : Selects s.config a r) (hread : Readable s r) :
    exec (.jmp a) s = .next (s.setPc (s.readReg r)) := by
  have hsource := State.sourceReg_eq_ok_iff_selects.mpr ⟨hsel, hread⟩
  simp [exec, execJmp, hsource]

/-- Settles O24: the new `FL` is the order of the two registers, in its three cases. -/
theorem cmpSetsTheThreeWayFlag : Obligations.CmpSetsTheThreeWayFlag := by
  intro s a b ra rb ha hb hra hrb hadv
  obtain ⟨heq, hgt, hlt, -⟩ := flagsRegisterCompareAndConditions s (s.readReg ra) (s.readReg rb)
  exact ⟨_, exec_cmp_of_checks ha hb hra hrb hadv, heq, hgt, hlt⟩

/-- Settles O25: once its register is read, JMP only sets `pc`. -/
theorem jmpGoesToTheRegister : Obligations.JmpGoesToTheRegister :=
  fun _ _ _ hsel hread => exec_jmp_of_checks hsel hread

/-! ## The conditional branch, taken or not -/

theorem State.condEq_eq_false : s.condEq = false ↔ s.fl ≠ 1 :=
  Bool.eq_false_iff.trans (not_congr State.condEq_eq_true)

theorem State.condNe_eq_false : s.condNe = false ↔ ¬ (s.fl = 2 ∨ s.fl = 4) :=
  Bool.eq_false_iff.trans (not_congr State.condNe_eq_true)

/-- A branch whose operand selects a register reads `FL` before it settles its target (R107). -/
theorem State.branchStep_of_selects (hsel : Selects s.config a r) :
    s.branchStep taken a =
      (s.checkFlags >>= fun _ => s.branchPc taken r 2 >>= fun target => pure (s.setPc target)) := by
  have hreg := State.selectReg_eq_ok_iff_selects.mpr hsel
  simp only [State.branchStep, hreg, Except.ok_bind']

/-- A read of an unset `FL` faults before the branch is taken or not, so neither the written bit nor the advance matters
(R27, R182). -/
theorem State.branchStep_flagsUnset (hsel : Selects s.config a r) (hfl : s.fl = 0)
    (hpolicy : s.config.flagsUnset = .fault) :
    s.attempt (s.branchStep taken a) = .next (s.faulted .flagsUnset none) := by
  have hflags := State.checkFlags_eq_error.mpr ⟨hpolicy, hfl, rfl⟩
  rw [State.branchStep_of_selects hsel]
  exact s.attempt_bind_error hflags _

section FlagsRead

variable (hsel : Selects s.config a r) (hflags : s.config.flagsUnset = .fault → s.fl ≠ 0)
include hsel hflags

/-- A taken branch asks no more than that its register is readable (R161, R163). -/
theorem State.branchStep_taken (htaken : taken = true) (hread : Readable s r) :
    s.attempt (s.branchStep taken a) = .next (s.setPc (s.readReg r)) := by
  have hwritten : s.checkWritten r = .ok () := s.checkWritten_eq_ok.mpr hread
  simp [State.branchStep_of_selects hsel, State.checkFlags_ok hflags, State.branchPc, htaken, hwritten]

/-- A branch not taken asks no more than that the advance fits (R161, R163). -/
theorem State.branchStep_notTaken (htaken : taken = false) (hadv : AdvanceFits s 2) :
    s.attempt (s.branchStep taken a) = .next (s.setPc (BitVec.ofNat 8 (s.pc.toNat + 2))) := by
  have hnext := s.nextPc_eq_ok.mpr ⟨hadv, rfl⟩
  simp [State.branchStep_of_selects hsel, State.checkFlags_ok hflags, State.branchPc, htaken, hnext]

/-- A branch that is taken exactly when `p` holds, where the checks of its outcome pass. -/
theorem State.branchStep_of_checks {p : Prop} [Decidable p] (htaken : taken = true ↔ p) (hread : p → Readable s r)
    (hadv : ¬ p → AdvanceFits s 2) :
    s.attempt (s.branchStep taken a) =
      .next (s.setPc (if p then s.readReg r else BitVec.ofNat 8 (s.pc.toNat + 2))) := by
  split
  · next hp => exact State.branchStep_taken hsel hflags (htaken.mpr hp) (hread hp)
  · next hp => exact State.branchStep_notTaken hsel hflags (Bool.eq_false_iff.mpr (mt htaken.mp hp)) (hadv hp)

end FlagsRead

/-! ## JEQ and JNE -/

/-- Settles O26: JEQ is the branch that is taken exactly when `FL` is EQUAL. -/
theorem jeqCompletes : Obligations.JeqCompletes :=
  fun _ _ _ hsel hread hadv hflags => State.branchStep_of_checks hsel hflags State.condEq_eq_true hread hadv

/-- Settles O27: JNE is the branch that is taken exactly when `FL` is GREATER_THAN or LESS_THAN. -/
theorem jneCompletes : Obligations.JneCompletes :=
  fun _ _ _ hsel hread hadv hflags => State.branchStep_of_checks hsel hflags State.condNe_eq_true hread hadv

/-- After a comparison of different bytes JNE is taken and JEQ is not, whichever byte was greater (R165). -/
theorem exec_branches_of_unequal (hsel : Selects s.config a r) (hne : s.fl = 2 ∨ s.fl = 4) :
    (AdvanceFits s 2 → exec (.jeq a) s = .next (s.setPc (BitVec.ofNat 8 (s.pc.toNat + 2)))) ∧
      (Readable s r → exec (.jne a) s = .next (s.setPc (s.readReg r))) := by
  obtain ⟨hset, hneEqual⟩ : s.fl ≠ 0 ∧ s.fl ≠ 1 := by rcases hne with hfl | hfl <;> simp [hfl]
  exact ⟨State.branchStep_notTaken hsel (fun _ => hset) (State.condEq_eq_false.mpr hneEqual),
    State.branchStep_taken hsel (fun _ => hset) (State.condNe_eq_true.mpr hne)⟩

/-- Settles O28, row by row: the value of `FL` decides both conditions, and only `FL = 0` under `fault` is no read. -/
theorem conditionalBranchMatrix : Obligations.ConditionalBranchMatrix := by
  intro s a r hsel
  refine ⟨fun hfl => ?equal, fun hfl => exec_branches_of_unequal hsel (.inl hfl),
    fun hfl => exec_branches_of_unequal hsel (.inr hfl), fun hfl hpolicy => ?unsetZero, fun hfl hpolicy => ?unsetFault⟩
  case equal =>
    have hflags : s.config.flagsUnset = .fault → s.fl ≠ 0 := fun _ => by simp [hfl]
    exact ⟨State.branchStep_taken hsel hflags (State.condEq_eq_true.mpr hfl),
      State.branchStep_notTaken hsel hflags (State.condNe_eq_false.mpr (by simp [hfl]))⟩
  case unsetZero =>
    have hflags : s.config.flagsUnset = .fault → s.fl ≠ 0 := fun hfault => by simp [hpolicy] at hfault
    exact ⟨State.branchStep_notTaken hsel hflags (State.condEq_eq_false.mpr (by simp [hfl])),
      State.branchStep_notTaken hsel hflags (State.condNe_eq_false.mpr (by simp [hfl]))⟩
  case unsetFault =>
    exact ⟨State.branchStep_flagsUnset hsel hfl hpolicy, State.branchStep_flagsUnset hsel hfl hpolicy⟩

end Sys2Proof.Machine

/-! # Faults: how one is taken, and which ones an instruction can take (R181, R183, R186) -/

namespace Sys2Proof.Machine

variable {s t : State} {i : Instr} {e : Trap}

/-! ## A fault is precise and terminal -/

/-- A step that ends in FAULT took a trap: a diagnostic record and an effect end elsewhere. -/
theorem trap_of_step_fault (h : step s = .next t) (hfault : t.status = .fault) : ∃ e, StepTrap s e ∧ t = s.raise e := by
  obtain ⟨hs, h⟩ := step_effect h
  cases h with
  | @trap e he ht => exact ⟨e, he, ht⟩
  | stall _ _ ht => simp [ht, hs] at hfault
  | instr _ _ heff => exact absurd hfault (heff.status_ne_fault hs)

/-- Settles O9: taking a trap is the fault entry, and a state with a step is RUNNING. -/
theorem faultsArePreciseAndTerminal : Obligations.FaultsArePreciseAndTerminal := by
  intro s t hstep hfault
  obtain ⟨e, -, rfl⟩ := trap_of_step_fault hstep hfault
  refine ⟨⟨e.cause, e.info, rfl⟩, fun u hnext => ?_⟩
  have hrunning := (step_effect hnext).1
  simp at hrunning

/-! ## Which checks the rows of the table give an instruction -/

theorem fetchOutOfRange_mem_causesOf (i : Instr) : .fetchOutOfRange ∈ causesOf i := by
  cases i <;> simp [causesOf]

theorem badRegister_mem_causesOf {b : Byte} (h : b ∈ i.regOperands) : .badRegister ∈ causesOf i := by
  cases i with
  | hlt | ret => simp [Instr.regOperands] at h
  | _ => simp [causesOf]

theorem flagsUnset_mem_causesOf (h : i.readsFlags = true) : .flagsUnset ∈ causesOf i := by
  cases i with
  | jeq | jne => simp [causesOf]
  | _ => cases h

theorem unwrittenRegister_mem_causesOf {b : Byte} {fl : FlagBits} (h : b ∈ i.sourceOperands fl) :
    .unwrittenRegister ∈ causesOf i := by
  cases i with
  | ldi | hlt | pop | ret => simp [Instr.sourceOperands] at h
  | _ => simp [causesOf]

theorem pcOutOfRange_mem_causesOf (h : i.length = 3) : .pcOutOfRange ∈ causesOf i := by
  cases i with
  | ldi | mul | add | cmp => simp [causesOf]
  | _ => simp [Instr.length, Instr.format, Format.length, Format.operandCount] at h

/-! ## An instruction's fault, and a step's -/

/-- Every check of an instruction raises a cause of its row. An advance from inside the fetch range passes 255 only by
three bytes. -/
theorem State.cause_mem_causesOf_of_checks (hfits : FetchFits s) (h : s.checks i = .error e) :
    e.cause ∈ causesOf i := by
  obtain h | ⟨-, -, h⟩ := Except.bind_eq_error'.mp h
  · obtain ⟨b, hb, h⟩ | ⟨hreads, h⟩ | ⟨b, hb, h⟩ := State.operandChecks_error h
    · obtain ⟨-, -, rfl⟩ := State.checkIndex_eq_error.mp h
      exact badRegister_mem_causesOf hb
    · obtain ⟨-, -, rfl⟩ := State.checkFlags_eq_error.mp h
      exact flagsUnset_mem_causesOf hreads
    · obtain ⟨-, -, rfl⟩ := s.checkWritten_eq_error.mp h
      exact unwrittenRegister_mem_causesOf hb
  · obtain ⟨-, hpolicy, hpast, rfl⟩ := State.advanceCheckOf_error h
    have hpc := hfits hpolicy
    have hlen := length_le_three i
    exact pcOutOfRange_mem_causesOf (by omega)

/-- An instruction that ends in FAULT took the trap of its checks, as its completion ends elsewhere. -/
theorem checks_of_exec_fault (hs : s.status = .running) (h : exec i s = .next t) (hfault : t.status = .fault) :
    ∃ e, s.checks i = .error e ∧ t = s.raise e := by
  rw [exec_eq_checks, State.attempt_eq_next] at h
  obtain h | ⟨e, h, ht⟩ := h
  · obtain ⟨-, -, hdone⟩ := Except.bind_eq_ok'.mp h
    obtain rfl := Except.ok.inj hdone
    exact absurd hfault (State.complete_status_ne_fault hs)
  · obtain h | ⟨-, -, h⟩ := Except.bind_eq_error'.mp h
    · exact ⟨e, h, ht⟩
    · cases h

/-- A step that ends in FAULT takes the fetch's trap, that of an unknown opcode, or that of the decoded instruction's
checks (R181). -/
theorem step_fault_cases (h : step s = .next t) (hfault : t.status = .fault) :
    t.faultCause = .fetchOutOfRange ∨
      (decode (windowAt s) = .error (.unknownOpcode (windowAt s).op) ∧ t.faultCause = .unknownOpcode) ∨
      ∃ i, decode (windowAt s) = .ok i ∧ t.faultCause ∈ causesOf i := by
  obtain ⟨hs, h⟩ := step_cases h
  rw [s.fetchWindow_eq_windowAt] at h
  obtain ⟨-, -, rfl⟩ | ⟨hfits, ⟨hd, h⟩ | ⟨i, hi, h⟩⟩ := h
  · exact .inl rfl
  · refine .inr (.inl ⟨hd, ?_⟩)
    obtain ⟨-, h'⟩ | ⟨-, h'⟩ := s.unknownOpcode_cases (windowAt s).op
    · obtain rfl := Host.Outcome.next.inj (h'.symm.trans h)
      rfl
    · obtain rfl := Host.Outcome.next.inj (h'.symm.trans h)
      cases hs.symm.trans hfault
  · obtain ⟨e, hchecks, rfl⟩ := checks_of_exec_fault hs h hfault
    exact .inr (.inr ⟨i, hi, State.cause_mem_causesOf_of_checks hfits hchecks⟩)

/-- Settles O10: the fetch's cause is in every row, and either the window decodes or it does not. -/
theorem faultCausesAreThoseOfTheTable : Obligations.FaultCausesAreThoseOfTheTable := by
  intro s t hstep hfault
  obtain hcause | ⟨hd, hcause⟩ | ⟨j, hj, hcause⟩ := step_fault_cases hstep hfault
  · exact ⟨fun i _ => hcause ▸ fetchOutOfRange_mem_causesOf i, fun _ _ => .inr hcause⟩
  · exact ⟨fun i hi => (by cases hd.symm.trans hi), fun _ _ => .inl hcause⟩
  · exact ⟨fun i hi => Except.ok.inj (hj.symm.trans hi) ▸ hcause, fun e he => (by cases hj.symm.trans he)⟩

end Sys2Proof.Machine

/-! # A launch: the image over the reset state (R59, R211) -/

namespace Sys2Proof.Machine

variable {c : Config} {image : List Byte} {s : State}

/-- The state that a launch leaves: the reset state with the image stored from address 0 (R211). -/
def State.launched (c : Config) (image : List Byte) : State :=
  { State.resetWith c with mem := Memory.writeBytes (State.resetWith c).mem 0 image }

theorem launch_of_fits (h : image.length ≤ Memory.size) : launch c image = .next (State.launched c image) :=
  if_neg (Nat.not_lt.mpr h)

theorem launch_of_tooLarge (h : Memory.size < image.length) : launch c image = .refused .imageTooLarge :=
  if_pos h

/-- A launch is accepted exactly when its image fits, and then it leaves one state. -/
theorem launch_eq_next : launch c image = .next s ↔ image.length ≤ Memory.size ∧ s = State.launched c image := by
  obtain hlarge | hfits := Nat.lt_or_ge Memory.size image.length
  · simp [launch_of_tooLarge hlarge, hlarge]
  · simp [launch_of_fits hfits, hfits, eq_comm]

/-! ## The memory of the launched state -/

theorem State.memRead_launched (c : Config) (image : List Byte) (a : Byte) :
    (State.launched c image).memRead a = if h : a.toNat < image.length then image[a.toNat] else memInitAt c a := by
  have hread := Memory.read_writeBytes (State.resetWith c).mem 0 image a.toNat
  simpa [State.memRead, State.launched, memInitAt, State.resetWith] using hread

theorem State.memRead_launched_image {k : Nat} (hfits : image.length ≤ Memory.size) (hk : k < image.length) :
    (State.launched c image).memRead (BitVec.ofNat 8 k) = image[k] := by
  have hcell : (BitVec.ofNat 8 k).toNat = k := Nat.mod_eq_of_lt (hk.trans_le hfits)
  simp [State.memRead_launched, hcell, hk]

theorem State.memRead_launched_memInit {a : Byte} (ha : image.length ≤ a.toNat) :
    (State.launched c image).memRead a = memInitAt c a := by
  rw [State.memRead_launched, dif_neg (Nat.not_lt.mpr ha)]

/-- Settles O52: an image that fits leaves the launched state, read cell by cell, and a longer one is refused. -/
theorem launchPlacesTheImageAndRuns : Obligations.LaunchPlacesTheImageAndRuns := by
  intro c image
  refine ⟨fun hfits => ?accepted, launch_of_tooLarge⟩
  case accepted =>
    exact ⟨State.launched c image, launch_of_fits hfits, rfl, rfl, rfl,
      fun _ => State.memRead_launched_image hfits, fun _ => State.memRead_launched_memInit⟩

/-! ## The invariant of the launched state -/

/-- Of memory, the invariant asks for the canonical form alone. -/
theorem State.Inv.withMem {mem : Memory} (h : s.Inv) (hmem : Memory.wf mem) : { s with mem := mem }.Inv :=
  { h with memCanonical := hmem }

theorem State.launched_inv (hfits : image.length ≤ Memory.size) : (State.launched c image).Inv := by
  have hmem : Memory.wf (Memory.writeBytes (State.resetWith c).mem 0 image) :=
    Memory.writeBytes_wf image (State.resetWith_mem_wf c) (by omega)
  exact (State.resetWith_inv c).withMem hmem

/-- Settles O41: an accepted launch leaves the launched state, whose image fits. -/
theorem launchMeetsTheInvariant : Obligations.LaunchMeetsTheInvariant := by
  intro c image s hlaunch
  obtain ⟨hfits, rfl⟩ := launch_eq_next.mp hlaunch
  exact State.launched_inv hfits

end Sys2Proof.Machine
